-- ==== Sys2Proof/Word.lean ====
section
/-! DEFINITION. Word.lean: the widths of CHIP-8 (spec 00_scope.md R6, R8; all values are unsigned). -/

namespace Sys2Proof

/-- A memory byte or a general register (R20, R50). -/
abbrev Byte := BitVec 8

/-- An instruction word, the address register I, the program counter or a stack entry. -/
abbrev Word := BitVec 16

/-- A 4-bit instruction field: a register index, a row count, a key index (R71). -/
abbrev Nibble := BitVec 4

/-- A 12-bit address constant `nnn` (R71, R73). -/
abbrev Addr := BitVec 12

end Sys2Proof
end

