-- ==== Sys2Proof/Syntax.lean ====
section
/-! DEFINITION. Syntax.lean: the 34 instructions of base CHIP-8 (spec 30_encoding.md R80 to R85, R88),
one constructor for each row of spec/opcode_table.json, in the table's order. Every field has exactly the
width of its bits in the word (R71), so each legal word is one term and each term one word. -/

namespace Sys2Proof

inductive Instr where
  /-- `00E0` CLS (R160). -/
  | cls
  /-- `00EE` RET (R143). -/
  | ret
  /-- `1nnn` JP addr (R140). -/
  | jp (nnn : Addr)
  /-- `2nnn` CALL addr (R142). -/
  | call (nnn : Addr)
  /-- `3xkk` SE Vx, byte (R130). -/
  | seByte (x : Nibble) (kk : Byte)
  /-- `4xkk` SNE Vx, byte (R131). -/
  | sneByte (x : Nibble) (kk : Byte)
  /-- `5xy0` SE Vx, Vy (R132). -/
  | seReg (x y : Nibble)
  /-- `6xkk` LD Vx, byte (R100). -/
  | ldByte (x : Nibble) (kk : Byte)
  /-- `7xkk` ADD Vx, byte (R103). -/
  | addByte (x : Nibble) (kk : Byte)
  /-- `8xy0` LD Vx, Vy (R101). -/
  | ldReg (x y : Nibble)
  /-- `8xy1` OR Vx, Vy (R120). -/
  | orReg (x y : Nibble)
  /-- `8xy2` AND Vx, Vy (R121). -/
  | andReg (x y : Nibble)
  /-- `8xy3` XOR Vx, Vy (R122). -/
  | xorReg (x y : Nibble)
  /-- `8xy4` ADD Vx, Vy (R104). -/
  | addReg (x y : Nibble)
  /-- `8xy5` SUB Vx, Vy (R105). -/
  | subReg (x y : Nibble)
  /-- `8xy6` SHR Vx, optional Vy (R123). -/
  | shr (x y : Nibble)
  /-- `8xy7` SUBN Vx, Vy (R106). -/
  | subnReg (x y : Nibble)
  /-- `8xyE` SHL Vx, optional Vy (R124). -/
  | shl (x y : Nibble)
  /-- `9xy0` SNE Vx, Vy (R133). -/
  | sneReg (x y : Nibble)
  /-- `Annn` LD I, addr (R102). -/
  | ldI (nnn : Addr)
  /-- `Bnnn` JP V0, addr (R141). -/
  | jpV0 (nnn : Addr)
  /-- `Cxkk` RND Vx, byte (R181). -/
  | rnd (x : Nibble) (kk : Byte)
  /-- `Dxyn` DRW Vx, Vy, nibble (R161). -/
  | drw (x y n : Nibble)
  /-- `Ex9E` SKP Vx (R179). -/
  | skp (x : Nibble)
  /-- `ExA1` SKNP Vx (R180). -/
  | sknp (x : Nibble)
  /-- `Fx07` LD Vx, DT (R175). -/
  | ldVxDt (x : Nibble)
  /-- `Fx0A` LD Vx, K (R178). -/
  | ldVxK (x : Nibble)
  /-- `Fx15` LD DT, Vx (R176). -/
  | ldDtVx (x : Nibble)
  /-- `Fx18` LD ST, Vx (R177). -/
  | ldStVx (x : Nibble)
  /-- `Fx1E` ADD I, Vx (R107). -/
  | addI (x : Nibble)
  /-- `Fx29` LD F, Vx (R153). -/
  | ldF (x : Nibble)
  /-- `Fx33` LD B, Vx (R152). -/
  | ldB (x : Nibble)
  /-- `Fx55` LD [I], Vx (R150). -/
  | storeRegs (x : Nibble)
  /-- `Fx65` LD Vx, [I] (R151). -/
  | loadRegs (x : Nibble)
  deriving DecidableEq, Repr

end Sys2Proof
end

