-- ==== Sys2Proof/WellFormed.lean ====
section
/-! DEFINITION. WellFormed.lean: which instructions are well formed, and the static part of the program's
contract. Every value of every field is legal (spec 30_encoding.md R73, R80) and the field types of `Instr`
have exactly the widths of R71, so the encoding needs no check. What a program must still keep
(70_reset_and_hazards.md R252 item 1) is that a constant jump or call target is even; the hardware does not
check it, and decoding does not depend on it. -/

namespace Sys2Proof

/-- The constant target, for the two instructions whose target the word alone fixes (R140, R142). -/
def Instr.constTarget : Instr → Option Addr
  | .jp nnn => some nnn
  | .call nnn => some nnn
  | _ => none

/-- R252 item 1, for the targets the word alone fixes: the target is even. (The target of Bnnn depends on V0:
`InContract` in Safety.lean.) -/
def Instr.wellFormed (i : Instr) : Bool :=
  match i.constTarget with
  | some nnn => nnn.toNat % 2 == 0
  | none => true

end Sys2Proof
end

