-- ==== Sys2Proof/Decode.lean ====
section
/-! DEFINITION. Decode.lean: fields, the decoder (spec 30_encoding.md R70 to R73, R80 to R86) and the encoder.
The decoder is total: a word outside R80 to R85 is rejected under the name of its row in R86's table. -/

namespace Sys2Proof

/-- Why a byte sequence is no instruction. The six family names are the six rows of R86's table. -/
inductive Reject where
  /-- Fewer than two bytes (R70: every instruction is exactly two bytes). -/
  | truncated
  /-- `0nnn` except 00E0 and 00EE (R81). -/
  | family0
  /-- `5xyn` with n ≠ 0 (R85). -/
  | family5
  /-- `8xyn` with n in 8 to D or F (R82). -/
  | family8
  /-- `9xyn` with n ≠ 0 (R85). -/
  | family9
  /-- `Exkk` with kk not 9E or A1 (R83). -/
  | familyE
  /-- `Fxkk` with kk not listed in R84. -/
  | familyF
  deriving DecidableEq, Repr

/-- The outcome of decoding a word. -/
inductive Decoded where
  | instr (i : Instr)
  | illegal (why : Reject)
  deriving DecidableEq, Repr

/-- Big-endian pairing, `hi ∥ lo` (R8, R55). -/
def joinBytes (hi lo : Byte) : Word := hi ++ lo

/-- `op[15:8]`, the byte at the lower address (R55). -/
def highByte (op : Word) : Byte := op.extractLsb' 8 8

/-- `op[7:0]`, the byte at the higher address (R55). -/
def lowByte (op : Word) : Byte := op.extractLsb' 0 8

/-- The opcode family `op[15:12]` (R71). -/
def fieldF (op : Word) : Nibble := op.extractLsb' 12 4

/-- `x = op[11:8]` (R71). -/
def fieldX (op : Word) : Nibble := op.extractLsb' 8 4

/-- `y = op[7:4]` (R71). -/
def fieldY (op : Word) : Nibble := op.extractLsb' 4 4

/-- `n = op[3:0]` (R71). -/
def fieldN (op : Word) : Nibble := op.extractLsb' 0 4

/-- `kk = op[7:0]` (R71). -/
def fieldKK (op : Word) : Byte := op.extractLsb' 0 8

/-- `nnn = op[11:0]` (R71). -/
def fieldNNN (op : Word) : Addr := op.extractLsb' 0 12

/-- Family 0 (R81). -/
def decode0 (op : Word) : Decoded :=
  if op = 0x00E0#16 then .instr .cls
  else if op = 0x00EE#16 then .instr .ret
  else .illegal .family0

/-- Family 8, second-level key n (R82). -/
def decode8 (x y n : Nibble) : Decoded :=
  match n.toNat with
  | 0x0 => .instr (.ldReg x y)
  | 0x1 => .instr (.orReg x y)
  | 0x2 => .instr (.andReg x y)
  | 0x3 => .instr (.xorReg x y)
  | 0x4 => .instr (.addReg x y)
  | 0x5 => .instr (.subReg x y)
  | 0x6 => .instr (.shr x y)
  | 0x7 => .instr (.subnReg x y)
  | 0xE => .instr (.shl x y)
  | _ => .illegal .family8

/-- Family E, second-level key kk (R83). -/
def decodeE (x : Nibble) (kk : Byte) : Decoded :=
  if kk = 0x9E#8 then .instr (.skp x)
  else if kk = 0xA1#8 then .instr (.sknp x)
  else .illegal .familyE

/-- Family F, second-level key kk (R84). -/
def decodeF (x : Nibble) (kk : Byte) : Decoded :=
  if kk = 0x07#8 then .instr (.ldVxDt x)
  else if kk = 0x0A#8 then .instr (.ldVxK x)
  else if kk = 0x15#8 then .instr (.ldDtVx x)
  else if kk = 0x18#8 then .instr (.ldStVx x)
  else if kk = 0x1E#8 then .instr (.addI x)
  else if kk = 0x29#8 then .instr (.ldF x)
  else if kk = 0x33#8 then .instr (.ldB x)
  else if kk = 0x55#8 then .instr (.storeRegs x)
  else if kk = 0x65#8 then .instr (.loadRegs x)
  else .illegal .familyF

/-- `Decode(op)`: first-level decode on the family (R80). -/
def decodeWord (op : Word) : Decoded :=
  let x := fieldX op
  let y := fieldY op
  let n := fieldN op
  let kk := fieldKK op
  let nnn := fieldNNN op
  match (fieldF op).toNat with
  | 0x0 => decode0 op
  | 0x1 => .instr (.jp nnn)
  | 0x2 => .instr (.call nnn)
  | 0x3 => .instr (.seByte x kk)
  | 0x4 => .instr (.sneByte x kk)
  | 0x5 => if n = 0#4 then .instr (.seReg x y) else .illegal .family5
  | 0x6 => .instr (.ldByte x kk)
  | 0x7 => .instr (.addByte x kk)
  | 0x8 => decode8 x y n
  | 0x9 => if n = 0#4 then .instr (.sneReg x y) else .illegal .family9
  | 0xA => .instr (.ldI nnn)
  | 0xB => .instr (.jpV0 nnn)
  | 0xC => .instr (.rnd x kk)
  | 0xD => .instr (.drw x y n)
  | 0xE => decodeE x kk
  | _ => decodeF x kk

/-- Decoding of any byte sequence: the instruction in the first two bytes, big-endian (R55, R70), with the
bytes after it. -/
def decode : List Byte → Except Reject (Instr × List Byte)
  | hi :: lo :: rest =>
    match decodeWord (joinBytes hi lo) with
    | .instr i => .ok (i, rest)
    | .illegal why => .error why
  | _ => .error .truncated

/-- Format NNN (R72): `f ∥ nnn`. -/
def encodeNNN (f : Nibble) (nnn : Addr) : Word := f ++ nnn

/-- Format XKK (R72): `f ∥ x ∥ kk`. -/
def encodeXKK (f x : Nibble) (kk : Byte) : Word := f ++ x ++ kk

/-- Formats XY and XYN (R72): `f ∥ x ∥ y ∥ n`, the last nibble a fixed sub-opcode or the row count. -/
def encodeXYN (f x y n : Nibble) : Word := f ++ x ++ y ++ n

/-- The word of an instruction (R72, R80 to R85). -/
def encode : Instr → Word
  | .cls => 0x00E0#16
  | .ret => 0x00EE#16
  | .jp nnn => encodeNNN 0x1#4 nnn
  | .call nnn => encodeNNN 0x2#4 nnn
  | .seByte x kk => encodeXKK 0x3#4 x kk
  | .sneByte x kk => encodeXKK 0x4#4 x kk
  | .seReg x y => encodeXYN 0x5#4 x y 0x0#4
  | .ldByte x kk => encodeXKK 0x6#4 x kk
  | .addByte x kk => encodeXKK 0x7#4 x kk
  | .ldReg x y => encodeXYN 0x8#4 x y 0x0#4
  | .orReg x y => encodeXYN 0x8#4 x y 0x1#4
  | .andReg x y => encodeXYN 0x8#4 x y 0x2#4
  | .xorReg x y => encodeXYN 0x8#4 x y 0x3#4
  | .addReg x y => encodeXYN 0x8#4 x y 0x4#4
  | .subReg x y => encodeXYN 0x8#4 x y 0x5#4
  | .shr x y => encodeXYN 0x8#4 x y 0x6#4
  | .subnReg x y => encodeXYN 0x8#4 x y 0x7#4
  | .shl x y => encodeXYN 0x8#4 x y 0xE#4
  | .sneReg x y => encodeXYN 0x9#4 x y 0x0#4
  | .ldI nnn => encodeNNN 0xA#4 nnn
  | .jpV0 nnn => encodeNNN 0xB#4 nnn
  | .rnd x kk => encodeXKK 0xC#4 x kk
  | .drw x y n => encodeXYN 0xD#4 x y n
  | .skp x => encodeXKK 0xE#4 x 0x9E#8
  | .sknp x => encodeXKK 0xE#4 x 0xA1#8
  | .ldVxDt x => encodeXKK 0xF#4 x 0x07#8
  | .ldVxK x => encodeXKK 0xF#4 x 0x0A#8
  | .ldDtVx x => encodeXKK 0xF#4 x 0x15#8
  | .ldStVx x => encodeXKK 0xF#4 x 0x18#8
  | .addI x => encodeXKK 0xF#4 x 0x1E#8
  | .ldF x => encodeXKK 0xF#4 x 0x29#8
  | .ldB x => encodeXKK 0xF#4 x 0x33#8
  | .storeRegs x => encodeXKK 0xF#4 x 0x55#8
  | .loadRegs x => encodeXKK 0xF#4 x 0x65#8

/-- The bytes of an instruction in memory order (R55). -/
def encodeBytes (i : Instr) : List Byte := [highByte (encode i), lowByte (encode i)]

/-- The bytes, in memory order, of the word whose low nbits bits are w's and whose other bits are 0. -/
def tableBytes (nbits w : Nat) : List Byte :=
  let op : Word := BitVec.ofNat 16 (w % 2 ^ nbits)
  [highByte op, lowByte op]

/-- What the decoder reads from a word numbered as spec/opcode_table.json numbers it. -/
def decodeTableWord (nbits w : Nat) : Option Instr :=
  match decode (tableBytes nbits w) with
  | .ok (i, _) => some i
  | .error _ => none

end Sys2Proof
end

