-- ==== Sys2Proof/Config.lean ====
section
/-! DEFINITION. Config.lean: what construction fixes for the life of a machine (spec 00_scope.md R7),
and the free values, which are constants with no body. -/

namespace Sys2Proof

/-- `ODD_PC` (R7, R59): what a model does with a fetch at an odd program counter. -/
inductive OddPc where
  | refuse
  | execute
  deriving DecidableEq, Repr

/-- The configuration parameters of R7, held as plain data in `State.cfg`; no step changes them (R35).
`FONT_BASE` is an address at which the 80 font bytes fit inside the 512 reserved bytes (R52). Log 4. -/
structure Config where
  /-- `WRAP`: sprite pixels wrap (true) or are clipped (false). -/
  wrap : Bool
  /-- `SHIFT_USES_VY`: 8xy6 and 8xyE shift V[y] (true) or V[x] (false). -/
  shiftUsesVy : Bool
  /-- `LOADSTORE_INC_I`: Fx55 and Fx65 advance I by x + 1 (true) or leave it (false). -/
  loadStoreIncI : Bool
  /-- `ODD_PC`. -/
  oddPc : OddPc
  /-- `FONT_BASE`. -/
  fontBase : Fin 433
  deriving DecidableEq, Repr

/-- The default column of R7. -/
def Config.default : Config where
  wrap := false
  shiftUsesVy := false
  loadStoreIncI := false
  oddPc := .refuse
  fontBase := 0

/-- `Rand()` (R12, R181, D33): the byte drawn from outside the machine at the n-th draw.
No body: nothing constrains it. Log 5. -/
opaque Config.rand : Nat → Byte

/-- The free choice behind `KeySelect` (R7, R178, D24): at the n-th draw, which of the pressed keys is
reported, as a position in their list (`pickKey` reduces it modulo the list's length). No body. Log 6. -/
opaque Config.keyPick : Nat → Nat

end Sys2Proof
end

