-- ==== Sys2Proof/Machine/State.lean ====
section
/-! DEFINITION. Machine/State.lean: all the state of spec/10_state.md, as plain data, and its value after
construction (R38, R241). INVENTORY.md lists every field with its rule and reset value. -/

namespace Sys2Proof.Machine

/-- Reasons a step ends with no next state though nothing is refused. The machine's own fatal conditions are
NOT here: raising one is a next state that holds the fault record (R206; log 2). -/
inductive Fault where
  /-- Raised by `step` when the host's stop signal has come: the run is over and no agent acts again (R231).
  Safe: nothing is claimed of a state after the last one. Log 9. -/
  | stopped
  deriving DecidableEq, Repr

/-- Reasons a step has no meaning. -/
inductive Refusal where
  /-- Raised by an arm of `exec` for an instruction that has no meaning yet. Safe: nothing is claimed of it. -/
  | notModelled (mnemonic : String)
  /-- Raised by the step cycle at an odd pc when ODD_PC = refuse (R59: a model-level refusal, outside the
  contract of `step()`). Safe. Log 7. -/
  | misalignedPc
  /-- Raised by a scheduled `set_key_pressed` with an index of 16 or more, which is no key: the call is refused
  (R228, C7). Safe. Log 16. -/
  | keyIndexOutOfRange (index : Nat)
  deriving DecidableEq, Repr

/-- The four fatal kinds of R200. -/
inductive FatalKind where
  | decodeError
  | stackOverflow
  | stackUnderflow
  | memoryOutOfBounds
  deriving DecidableEq, Repr

/-- The fault record `(kind, opcode, addr)` of R34: the opcode is absent when the fetch itself failed; addr is
the address the instruction was fetched from. -/
structure FaultRecord where
  kind : FatalKind
  opcode : Option Word
  addr : Word
  deriving DecidableEq, Repr

/-- One action of one agent (R204, R216, R220): a Step of the CPU Core, a Tick of the Timer Thread, or a host
action that changes state (R228, R229, R231). -/
inductive Turn where
  | core
  | tick
  | setKey (index : Nat) (pressed : Bool)
  | present
  | stop
  deriving DecidableEq, Repr

/-- Memory as (address, byte) pairs in the canonical form of `Memory.wf` (Machine/Memory.lean). -/
abbrev Memory := List Host.Cell

/-- `disp[y][x]`: 32 rows of 64 pixels, true = set (R30). -/
abbrev Display := Vector (Vector Bool 64) 32

/-- The machine's state. -/
structure State where
  /-- V0 to VF (R20); V[15] is VF, the only flag (R22). -/
  v : Vector Byte 16
  /-- The address register I (R23). -/
  i : Word
  /-- The program counter (R25). -/
  pc : Word
  /-- SP, the number of valid stack entries (R24). -/
  sp : Fin 17
  /-- The return-address stack (R24). -/
  stack : Vector Word 16
  /-- DT, the delay timer (R29). -/
  dt : Byte
  /-- ST, the sound timer (R29). -/
  st : Byte
  /-- Memory (R37, R50). -/
  mem : Memory
  /-- The Display Buffer (R30). -/
  disp : Display
  /-- The dirty flag (R31). -/
  dirty : Bool
  /-- The Keypad State (R32), true = pressed. -/
  key : Vector Bool 16
  /-- The key-wait latch: a wait is active (R33). -/
  kwActive : Bool
  /-- The key-wait latch: the register that awaits a key (R33). -/
  kwReg : Nibble
  /-- The fault record (R34). -/
  fault : Option FaultRecord
  /-- The port `display_changed` after the last step (R76, R225). Log 8. -/
  displayChanged : Bool
  /-- The construction-time configuration (R7, R35). Log 4. -/
  cfg : Config
  /-- The host's stop signal has come (R231). Log 9. -/
  stopped : Bool
  /-- The model's own: the actions scheduled next, oldest first; empty, the core acts (R216). Log 3. -/
  turns : List Turn
  /-- The model's own: how many free values have been taken (R7). Logs 5, 6, 11. -/
  draws : Nat
  deriving DecidableEq, Repr

/-- The machine right after construction with the default configuration and a ROM of length 0 (R38, R241).
A program is loaded by `State.construct` (Machine/Agents.lean). Logs 3, 10, 11, 12, 13. -/
def State.reset : State where
  v := Vector.replicate 16 0
  i := 0
  pc := 512
  sp := 0
  stack := Vector.replicate 16 0
  dt := 0
  st := 0
  mem := []
  disp := Vector.replicate 32 (Vector.replicate 64 false)
  dirty := false
  key := Vector.replicate 16 false
  kwActive := false
  kwReg := 0
  fault := none
  displayChanged := false
  cfg := Config.default
  stopped := false
  turns := []
  draws := 0

end Sys2Proof.Machine
end

