-- ==== Sys2Proof/Machine/Memory.lean ====
section
/-! DEFINITION. Machine/Memory.lean: the font, what an unlisted address reads as, and reads and writes of
the list of cells (spec/20_memory.md). Bounds are checked by the instructions (R57) and the fetch (R56). -/

namespace Sys2Proof.Machine

/-- `FONT`, row 0 of glyph 0 first: glyphs 0 to 7 (R53). -/
def fontLow : List Byte :=
  [0xF0, 0x90, 0x90, 0x90, 0xF0,
   0x20, 0x60, 0x20, 0x20, 0x70,
   0xF0, 0x10, 0xF0, 0x80, 0xF0,
   0xF0, 0x10, 0xF0, 0x10, 0xF0,
   0x90, 0x90, 0xF0, 0x10, 0x10,
   0xF0, 0x80, 0xF0, 0x10, 0xF0,
   0xF0, 0x80, 0xF0, 0x90, 0xF0,
   0xF0, 0x10, 0x20, 0x40, 0x40]

/-- `FONT`, glyphs 8 to F (R53). -/
def fontHigh : List Byte :=
  [0xF0, 0x90, 0xF0, 0x90, 0xF0,
   0xF0, 0x90, 0xF0, 0x10, 0xF0,
   0xF0, 0x90, 0xF0, 0x90, 0x90,
   0xE0, 0x90, 0xE0, 0x90, 0xE0,
   0xF0, 0x80, 0x80, 0x80, 0xF0,
   0xE0, 0x90, 0x90, 0x90, 0xE0,
   0xF0, 0x80, 0xF0, 0x80, 0xF0,
   0xF0, 0x80, 0xF0, 0x80, 0x80]

/-- `FONT[0..79]` (R53). -/
def font : List Byte := fontLow ++ fontHigh

/-- The number of Memory bytes, `MEM_SIZE` (R6). -/
def memSize : Nat := 4096

/-- What an unlisted address reads as: the reset contents of a machine with an empty ROM, that is the font at
`FONT_BASE` and 0 elsewhere (R52, R54). Log 12. -/
def unlisted (base : Fin 433) (a : Nat) : Byte :=
  if base.val ≤ a then font.getD (a - base.val) 0 else 0

/-- `mem[a]`. -/
def Memory.read (base : Fin 433) : Memory → Nat → Byte
  | [], a => unlisted base a
  | (k, w) :: m, a => if a = k then w else Memory.read base m a

/-- The list without any entry for address a. -/
def Memory.erase : Memory → Nat → Memory
  | [], _ => []
  | (k, w) :: m, a => if a = k then Memory.erase m a else (k, w) :: Memory.erase m a

/-- The list with (a, b) put in before the first larger address. -/
def Memory.insert : Memory → Nat → Byte → Memory
  | [], a, b => [(a, b)]
  | (k, w) :: m, a, b => if a < k then (a, b) :: (k, w) :: m else (k, w) :: Memory.insert m a b

/-- `mem[a] <- b`, keeping the canonical form: a byte equal to what the unlisted address reads as is not listed. -/
def Memory.write (base : Fin 433) (m : Memory) (a : Nat) (b : Byte) : Memory :=
  if b = unlisted base a then Memory.erase m a else Memory.insert (Memory.erase m a) a b

/-- The canonical form from address lo up: addresses strictly rise, lie below 4096, and no entry equals what its
address reads as when unlisted. -/
def Memory.wfFrom (base : Fin 433) : Nat → Memory → Bool
  | _, [] => true
  | lo, (k, w) :: m =>
    decide (lo ≤ k) && decide (k < memSize) && decide (w ≠ unlisted base k) && Memory.wfFrom base (k + 1) m

/-- The canonical form of Memory. -/
def Memory.wf (base : Fin 433) (m : Memory) : Bool := Memory.wfFrom base 0 m

/-- One-byte reads at ascending addresses a, a + 1, ..., a + n - 1 (R58). -/
def Memory.readBytes (base : Fin 433) (m : Memory) (a : Nat) : Nat → List Byte
  | 0 => []
  | n + 1 => Memory.read base m a :: Memory.readBytes base m (a + 1) n

/-- One-byte writes at ascending addresses a, a + 1, ... (R58). -/
def Memory.writeBytes (base : Fin 433) (m : Memory) (a : Nat) : List Byte → Memory
  | [] => m
  | b :: bs => Memory.writeBytes base (Memory.write base m a b) (a + 1) bs

end Sys2Proof.Machine
end

