-- ==== Sys2Proof/Machine/Ops.lean ====
section
/-! DEFINITION. Machine/Ops.lean: the named operations on registers, pc, stack, memory and the rest of the
state; the fetch; entry to the fatal state. Every instruction's meaning is built from these. There is no
return from the fatal state (spec/60_exceptions.md R207), so no operation undoes `takeFatal`. -/

namespace Sys2Proof.Machine

/-! ### Plain updates, one field or one coupled group each -/

/-- `V[x]` (R9). -/
def State.readV (s : State) (x : Nibble) : Byte := s.v[x.toNat]'x.isLt

/-- `V[x] <- b` (R9). -/
def State.setV (s : State) (x : Nibble) (b : Byte) : State := { s with v := s.v.set x.toNat b x.isLt }

/-- All of V at once, for Fx65. -/
def State.setRegs (s : State) (v : Vector Byte 16) : State := { s with v := v }

/-- `I <- w`. -/
def State.setI (s : State) (w : Word) : State := { s with i := w }

/-- `pc <- w`. -/
def State.setPc (s : State) (w : Word) : State := { s with pc := w }

/-- SP and the stack entries (R24). -/
def State.setStack (s : State) (sp : Fin 17) (stack : Vector Word 16) : State := { s with sp := sp, stack := stack }

/-- `DT <- b`. -/
def State.setDT (s : State) (b : Byte) : State := { s with dt := b }

/-- `ST <- b`. -/
def State.setST (s : State) (b : Byte) : State := { s with st := b }

/-- Memory. -/
def State.setMem (s : State) (m : Memory) : State := { s with mem := m }

/-- The new Display Buffer of 00E0 or Dxyn; `changed`: at least one pixel changed, which sets the dirty flag and is
the step's `display_changed` (R31, R160, R161). -/
def State.setDisp (s : State) (d : Display) (changed : Bool) : State :=
  { s with disp := d, dirty := s.dirty || changed, displayChanged := changed }

/-- The key-wait latch (R33). -/
def State.setLatch (s : State) (active : Bool) (reg : Nibble) : State := { s with kwActive := active, kwReg := reg }

/-- `key[k] <- pressed` (R228). -/
def State.setKey (s : State) (k : Nibble) (pressed : Bool) : State := { s with key := s.key.set k.toNat pressed k.isLt }

/-- The dirty flag (R31). -/
def State.setDirty (s : State) (d : Bool) : State := { s with dirty := d }

/-- The `display_changed` port (R76). -/
def State.setChanged (s : State) (c : Bool) : State := { s with displayChanged := c }

/-- The stop signal (R231). -/
def State.setStopped (s : State) (b : Bool) : State := { s with stopped := b }

/-- The schedule (R216). -/
def State.setTurns (s : State) (ts : List Turn) : State := { s with turns := ts }

/-- One free value has been taken. -/
def State.tookDraw (s : State) : State := { s with draws := s.draws + 1 }

/-- The fault record (R34). -/
def State.setFault (s : State) (f : Option FaultRecord) : State := { s with fault := f }

/-! ### Memory through the state -/

/-- `mem[a]` (R9). -/
def State.readByte (s : State) (a : Nat) : Byte := Memory.read s.cfg.fontBase s.mem a

/-- The n bytes at a, a + 1, ... -/
def State.readBytes (s : State) (a n : Nat) : List Byte := Memory.readBytes s.cfg.fontBase s.mem a n

/-- The bytes stored at a, a + 1, ... -/
def State.writeBytes (s : State) (a : Nat) (bs : List Byte) : State :=
  s.setMem (Memory.writeBytes s.cfg.fontBase s.mem a bs)

/-! ### The program counter -/

/-- The advance of the step cycle, before decode and execution (R75). -/
def State.advance (s : State) : State := s.setPc (s.pc + 2)

/-- `skip`: a further 2 on the advanced pc (R12, R134). -/
def State.skip (s : State) : State := s.setPc (s.pc + 2)

/-- The key-wait rewind: the advance undone (R178). -/
def State.rewind (s : State) : State := s.setPc (s.pc - 2)

/-! ### The stack (R24, D7) -/

/-- Push at `stack[SP]`, then increment SP; a full stack is left alone (the caller raises first, R142). -/
def State.push (s : State) (w : Word) : State :=
  if h : s.sp.val < 16 then s.setStack ⟨s.sp.val + 1, by omega⟩ (s.stack.set s.sp.val w h) else s

/-- `stack[SP - 1]`, the newest valid entry (the caller checks SP ≠ 0, R143). -/
def State.top (s : State) : Word := s.stack[s.sp.val - 1]'(by omega)

/-- SP decremented; the popped entry is not erased (R143). -/
def State.drop (s : State) : State := s.setStack ⟨s.sp.val - 1, by omega⟩ s.stack

/-! ### The fatal conditions (R205, R206) -/

/-- Entry to the fatal state: the record is written and the step's result is
(display_changed = 0, halted = 1, fatal = the record); nothing else changes. -/
def State.takeFatal (s : State) (kind : FatalKind) (opcode : Option Word) (addr : Word) : State :=
  (s.setFault (some { kind := kind, opcode := opcode, addr := addr })).setChanged false

/-- `raise kind` from decode or execution (R11, R206): pc already stands at a + 2, so the fetch address is
pc - 2; op is the instruction word. Log 14. -/
def State.raise (s : State) (kind : FatalKind) (op : Word) : State := s.takeFatal kind (some op) (s.pc - 2)

/-! ### The fetch (R10, R55, R56) -/

/-- `MemRead(pc, 2)`, big-endian; none where it raises `MemoryOutOfBounds`. -/
def State.fetch (s : State) : Option Word :=
  if s.pc.toNat + 1 ≤ 4095 then some (joinBytes (s.readByte s.pc.toNat) (s.readByte (s.pc.toNat + 1))) else none

/-- The step cycle refuses a fetch here: the pc is odd and ODD_PC = refuse (R59). -/
def State.oddRefused (s : State) : Bool := s.pc.toNat % 2 == 1 && s.cfg.oddPc == .refuse

/-- A fetch at pc gives a word: not refused and in range. -/
def State.canFetch (s : State) : Bool := !s.oddRefused && decide (s.pc.toNat + 1 ≤ 4095)

/-- The state with bytes stored where the next step fetches, all that this takes set: the bytes at pc (at 512 where
nothing can be fetched at pc), the core's turn, no fatal state, no stop. Log 13. -/
def State.placeBytes (s : State) (bs : List Byte) : State :=
  let p := if s.canFetch then s else s.setPc 512
  (((p.writeBytes p.pc.toNat bs).setFault none).setTurns []).setStopped false

end Sys2Proof.Machine
end

