-- ==== Sys2Proof/Machine/Operands.lean ====
section
/-! DEFINITION. Machine/Operands.lean: every operand form of the spec (30_encoding.md R73, 44_memory_ops.md R154):
registers (`State.readV`), byte and address constants, the shifted source, the low nibble of a register, the bytes at
I plus an offset, the decimal digits, the pressed keys. -/

namespace Sys2Proof.Machine

/-- `zext_16(nnn)` (R73). -/
def zextAddr (nnn : Addr) : Word := nnn.setWidth 16

/-- `zext_16` of a byte (R107, R141). -/
def zextByte (b : Byte) : Word := b.setWidth 16

/-- `zext_8` of a nibble (R178). -/
def zextNibble (k : Nibble) : Byte := k.setWidth 8

/-- The low nibble `V[x][3:0]` of a register, which selects a key or a glyph (R153, R179, R180). -/
def State.lowNibble (s : State) (x : Nibble) : Nibble := (s.readV x).extractLsb' 0 4

/-- The shifted source of 8xy6 and 8xyE: V[y] if SHIFT_USES_VY, else V[x] (R123, R124). -/
def State.shiftSource (s : State) (x y : Nibble) : Byte :=
  if s.cfg.shiftUsesVy then s.readV y else s.readV x

/-- The effective address `I + k`, an unbounded natural (R57). -/
def State.atI (s : State) (k : Nat) : Nat := s.i.toNat + k

/-- The last address of a range of n > 0 bytes at I lies above 4095, so that the access raises (R57). -/
def State.outOfBounds (s : State) (n : Nat) : Bool := decide (n > 0) && decide (s.atI n - 1 > 4095)

/-- V[0] to V[x], lowest register first (R150). -/
def State.regsUpTo (s : State) (x : Nibble) : List Byte := s.v.toList.take (x.toNat + 1)

/-- The registers with `V[k] <- b0, V[k + 1] <- b1, ...` done in that order (R151). -/
def fillRegs (v : Vector Byte 16) (k : Nat) : List Byte → Vector Byte 16
  | [] => v
  | b :: bs => fillRegs (v.setIfInBounds k b) (k + 1) bs

/-- `I <- trunc_16(I + x + 1)` if LOADSTORE_INC_I (R150, R151). -/
def State.bumpI (s : State) (x : Nibble) : State :=
  if s.cfg.loadStoreIncI then s.setI (BitVec.ofNat 16 (s.i.toNat + x.toNat + 1)) else s

/-- Hundreds, tens and ones (R152). -/
def bcdDigits (b : Byte) : List Byte :=
  [BitVec.ofNat 8 (b.toNat / 100), BitVec.ofNat 8 (b.toNat / 10 % 10), BitVec.ofNat 8 (b.toNat % 10)]

/-- The address of the glyph for digit d (R52, R153). -/
def glyphAddr (base : Fin 433) (d : Nibble) : Word := BitVec.ofNat 16 (base.val + 5 * d.toNat)

/-- `key[k]` (R32). -/
def State.keyDown (s : State) (k : Nibble) : Bool := s.key[k.toNat]'k.isLt

/-- The 16 key indices, lowest first. -/
def allKeys : List Nibble := (List.range 16).map (BitVec.ofNat 4)

/-- The set S of R178: the keys down now. -/
def State.keysDown (s : State) : List Nibble := allKeys.filter s.keyDown

/-- `KeySelect(S)` for a non-empty S (R7, R178): the n-th free choice, some member of S. Log 6. -/
def pickKey (keys : List Nibble) (n : Nat) : Nibble := keys.getD (Config.keyPick n % keys.length) 0

end Sys2Proof.Machine
end

