-- ==== Sys2Proof/Machine/Flags.lean ====
section
/-! DEFINITION. Machine/Flags.lean: every flag computation of the spec (10_state.md R22). VF is V[15]; the
result is written first and the flag last (D15). The collision flag is computed with the sprite
(Machine/DisplayOps.lean). -/

namespace Sys2Proof.Machine

/-- Register 15, VF (R22). -/
def vf : Nibble := 0xF#4

/-- The flag byte 0x01 or 0x00 (R22). -/
def flagByte (b : Bool) : Byte := if b then 1 else 0

/-- `V[15] <- flag` (R22). -/
def State.setFlag (s : State) (b : Bool) : State := s.setV vf (flagByte b)

/-- `V[x] <- r`, then `V[15] <- flag`, written last (R22, R104). -/
def State.setResult (s : State) (x : Nibble) (r : Byte) (flag : Bool) : State := (s.setV x r).setFlag flag

/-- The natural-number sum of two registers (R104). -/
def sumOf (a b : Byte) : Nat := a.toNat + b.toNat

/-- Carry: the sum exceeds 255 (R104). -/
def carry (a b : Byte) : Bool := decide (sumOf a b > 255)

/-- No borrow in `a - b`: the minuend is at least the subtrahend (R105, R106, D16). -/
def noBorrow (a b : Byte) : Bool := decide (a.toNat ≥ b.toNat)

/-- The difference `trunc_8(a - b)` (R105). -/
def diffOf (a b : Byte) : Byte := BitVec.ofNat 8 (a.toNat + 256 - b.toNat)

/-- The bit a right shift by one pushes out (R123). -/
def shiftedOutRight (b : Byte) : Bool := b.getLsbD 0

/-- The bit a left shift by one pushes out (R124). -/
def shiftedOutLeft (b : Byte) : Bool := b.getLsbD 7

end Sys2Proof.Machine
end

