-- ==== Sys2Proof/Machine/DisplayOps.lean ====
section
/-! DEFINITION. Machine/DisplayOps.lean: clear and sprite draw (spec/45_display.md R160 to R163). pc is already a + 2 and stays there. -/

namespace Sys2Proof.Machine

/-- The locals of R161 while a sprite is drawn. -/
structure Drawing where
  disp : Display
  collision : Bool
  changed : Bool
  deriving DecidableEq, Repr

/-- The blank display (R160). -/
def blankDisplay : Display := Vector.replicate 32 (Vector.replicate 64 false)

/-- `disp[y][x]` for a pixel on the grid. -/
def pixelAt (d : Display) (y x : Nat) (h : y < 32 ∧ x < 64) : Bool := (d[y]'h.1)[x]'h.2

/-- The grid with one pixel inverted. -/
def flipPixel (d : Display) (y x : Nat) (h : y < 32 ∧ x < 64) : Display :=
  d.set y ((d[y]'h.1).set x (!pixelAt d y x h) h.2) h.1

/-- Some pixel is set (R160). -/
def anyLit (d : Display) : Bool := d.toList.any fun row => row.toList.any id

/-- The pixel coordinate that a sprite coordinate names: wrapped modulo the display size or left alone (R161). -/
def wrapCoord (wrap : Bool) (size c : Nat) : Nat := if wrap then c % size else c

/-- One set sprite bit at (px, py): XOR the pixel if it is on the grid; clipped otherwise (R161). -/
def plot (wrap : Bool) (px py : Nat) (d : Drawing) : Drawing :=
  let x := wrapCoord wrap 64 px
  let y := wrapCoord wrap 32 py
  if h : y < 32 ∧ x < 64 then
    { disp := flipPixel d.disp y x h, collision := d.collision || pixelAt d.disp y x h, changed := true }
  else d

/-- The bits of a sprite byte, bit 7 (the leftmost pixel) first (R162). -/
def spriteBits (b : Byte) : List Bool := (List.range 8).map fun c => b.getLsbD (7 - c)

/-- The columns px, px + 1, ... of one sprite row (R161). -/
def drawBits (wrap : Bool) (px py : Nat) : List Bool → Drawing → Drawing
  | [], d => d
  | b :: bs, d => drawBits wrap (px + 1) py bs (if b then plot wrap px py d else d)

/-- The rows py, py + 1, ... of a sprite (R161). -/
def drawRows (wrap : Bool) (px py : Nat) : List Byte → Drawing → Drawing
  | [], d => d
  | row :: rows, d => drawRows wrap px (py + 1) rows (drawBits wrap px py (spriteBits row) d)

/-- The sprite of Dxyn drawn on the state's display: all n bytes are read before any pixel changes (R161). -/
def State.drawSprite (s : State) (x y n : Nibble) : Drawing :=
  drawRows s.cfg.wrap (s.readV x).toNat (s.readV y).toNat (s.readBytes (s.atI 0) n.toNat)
    { disp := s.disp, collision := false, changed := false }

/-- `00E0` CLS (R160). -/
def execCls (s : State) : Host.Outcome State Fault Refusal :=
  .next (s.setDisp blankDisplay (anyLit s.disp))

/-- `Dxyn` DRW Vx, Vy, nibble (R161). -/
def execDrw (x y n : Nibble) (s : State) : Host.Outcome State Fault Refusal :=
  if s.outOfBounds n.toNat then .next (s.raise .memoryOutOfBounds (encode (.drw x y n)))
  else
    let d := s.drawSprite x y n
    .next ((s.setDisp d.disp d.changed).setFlag d.collision)

end Sys2Proof.Machine
end

