-- ==== Sys2Proof/Machine/Agents.lean ====
section
/-! DEFINITION. Machine/Agents.lean: construction, the Timer Thread's tick, and the host's side of the machine
(spec/60_exceptions.md R215, R225 to R232; spec/70_reset_and_hazards.md R241). -/

namespace Sys2Proof.Machine

/-- `PROG_BASE` (R6). -/
def progBase : Nat := 512

/-- The longest ROM that fits, 4096 - 512 bytes (R54). -/
def maxRom : Nat := 3584

/-- `Construct(ROM, WRAP)` (R241) with the other parameters of R7; none where construction is refused because the ROM
does not fit (R54). The schedule starts empty; a statement about every schedule replaces `turns`. Log 13, log 15. -/
def State.construct (rom : List Byte) (cfg : Config) : Option State :=
  if rom.length > maxRom then none
  else some { State.reset with cfg := cfg, mem := Memory.writeBytes cfg.fontBase [] progBase rom }

/-- One timer's part of a tick: decrement while above zero, never below (R215). -/
def tickTimer (b : Byte) : Byte := if b.toNat > 0 then b - 1 else b

/-- `Tick()`: one indivisible transition on both timers (R215, D30). -/
def State.tick (s : State) : State := (s.setDT (tickTimer s.dt)).setST (tickTimer s.st)

/-- A tick: it has no precondition and is not stopped by a fatal state (R219). -/
def actTick (s : State) : Host.Outcome State Fault Refusal := .next s.tick

/-- `set_key_pressed(index, pressed)` (R228): an index of 16 or more is refused. -/
def actSetKey (index : Nat) (pressed : Bool) (s : State) : Host.Outcome State Fault Refusal :=
  if index < 16 then .next (s.setKey (BitVec.ofNat 4 index) pressed)
  else .refused (.keyIndexOutOfRange index)

/-- A frame is presented: the dirty flag is cleared (R31, R229). -/
def actPresent (s : State) : Host.Outcome State Fault Refusal := .next (s.setDirty false)

/-- The stop signal: this state is the last one in which an agent acted (R231). -/
def actStop (s : State) : Host.Outcome State Fault Refusal := .next (s.setStopped true)

/-- `get_display()`: a read-only snapshot (R229). -/
def State.getDisplay (s : State) : Display := s.disp

/-- `sound_active` (R230). -/
def State.soundActive (s : State) : Bool := s.st != 0

/-- `halted` (R34, R76). -/
def State.halted (s : State) : Bool := s.fault.isSome

/-- The record that `step()` returns (R76). -/
structure StepResult where
  displayChanged : Bool
  halted : Bool
  fatal : Option FaultRecord
  deriving DecidableEq, Repr

/-- The result of the last step, read after it (R76, R225). -/
def State.result (s : State) : StepResult :=
  { displayChanged := s.displayChanged, halted := s.halted, fatal := s.fault }

end Sys2Proof.Machine
end

