-- ==== Sys2Proof/Machine/Bitwise.lean ====
section
/-! DEFINITION. Machine/Bitwise.lean: bitwise and shift instructions (spec/41_bitwise.md R120 to R124). pc is already a + 2 and stays there. -/

namespace Sys2Proof.Machine

/-- `8xy1` OR Vx, Vy (R120): VF is not written as a flag (D18). -/
def execOrReg (x y : Nibble) (s : State) : Host.Outcome State Fault Refusal :=
  .next (s.setV x (s.readV x ||| s.readV y))

/-- `8xy2` AND Vx, Vy (R121). -/
def execAndReg (x y : Nibble) (s : State) : Host.Outcome State Fault Refusal :=
  .next (s.setV x (s.readV x &&& s.readV y))

/-- `8xy3` XOR Vx, Vy (R122). -/
def execXorReg (x y : Nibble) (s : State) : Host.Outcome State Fault Refusal :=
  .next (s.setV x (s.readV x ^^^ s.readV y))

/-- `8xy6` SHR Vx, optional Vy (R123). -/
def execShr (x y : Nibble) (s : State) : Host.Outcome State Fault Refusal :=
  let b := s.shiftSource x y
  .next (s.setResult x (b >>> 1) (shiftedOutRight b))

/-- `8xyE` SHL Vx, optional Vy (R124). -/
def execShl (x y : Nibble) (s : State) : Host.Outcome State Fault Refusal :=
  let b := s.shiftSource x y
  .next (s.setResult x (b <<< 1) (shiftedOutLeft b))

end Sys2Proof.Machine
end

