-- ==== Sys2Proof/Machine/Control.lean ====
section
/-! DEFINITION. Machine/Control.lean: jump, call and return (spec/43_control.md R140 to R144). -/

namespace Sys2Proof.Machine

/-- `1nnn` JP addr (R140). -/
def execJp (nnn : Addr) (s : State) : Host.Outcome State Fault Refusal :=
  .next (s.setPc (zextAddr nnn))

/-- `Bnnn` JP V0, addr (R141). -/
def execJpV0 (nnn : Addr) (s : State) : Host.Outcome State Fault Refusal :=
  .next (s.setPc (zextAddr nnn + zextByte (s.readV 0)))

/-- `2nnn` CALL addr (R142): the seventeenth nested call raises. -/
def execCall (nnn : Addr) (s : State) : Host.Outcome State Fault Refusal :=
  if s.sp.val = 16 then .next (s.raise .stackOverflow (encode (.call nnn)))
  else .next ((s.push s.pc).setPc (zextAddr nnn))

/-- `00EE` RET (R143). -/
def execRet (s : State) : Host.Outcome State Fault Refusal :=
  if s.sp.val = 0 then .next (s.raise .stackUnderflow (encode .ret))
  else .next (s.drop.setPc s.top)

end Sys2Proof.Machine
end

