-- ==== Sys2Proof/Machine/LoadArith.lean ====
section
/-! DEFINITION. Machine/LoadArith.lean: loads and arithmetic (spec/40_load_arith.md R100 to R108). pc is already a + 2 and stays there. -/

namespace Sys2Proof.Machine

/-- `6xkk` LD Vx, byte (R100). -/
def execLdByte (x : Nibble) (kk : Byte) (s : State) : Host.Outcome State Fault Refusal :=
  .next (s.setV x kk)

/-- `8xy0` LD Vx, Vy (R101). -/
def execLdReg (x y : Nibble) (s : State) : Host.Outcome State Fault Refusal :=
  .next (s.setV x (s.readV y))

/-- `Annn` LD I, addr (R102). -/
def execLdI (nnn : Addr) (s : State) : Host.Outcome State Fault Refusal :=
  .next (s.setI (zextAddr nnn))

/-- `7xkk` ADD Vx, byte (R103): no flag is written. -/
def execAddByte (x : Nibble) (kk : Byte) (s : State) : Host.Outcome State Fault Refusal :=
  .next (s.setV x (BitVec.ofNat 8 (sumOf (s.readV x) kk)))

/-- `8xy4` ADD Vx, Vy (R104). -/
def execAddReg (x y : Nibble) (s : State) : Host.Outcome State Fault Refusal :=
  let a := s.readV x
  let b := s.readV y
  .next (s.setResult x (BitVec.ofNat 8 (sumOf a b)) (carry a b))

/-- `8xy5` SUB Vx, Vy (R105). -/
def execSubReg (x y : Nibble) (s : State) : Host.Outcome State Fault Refusal :=
  let a := s.readV x
  let b := s.readV y
  .next (s.setResult x (diffOf a b) (noBorrow a b))

/-- `8xy7` SUBN Vx, Vy (R106). -/
def execSubnReg (x y : Nibble) (s : State) : Host.Outcome State Fault Refusal :=
  let a := s.readV x
  let b := s.readV y
  .next (s.setResult x (diffOf b a) (noBorrow b a))

/-- `Fx1E` ADD I, Vx (R107): reduced modulo 65536, no flag is written. -/
def execAddI (x : Nibble) (s : State) : Host.Outcome State Fault Refusal :=
  .next (s.setI (s.i + zextByte (s.readV x)))

end Sys2Proof.Machine
end

