-- ==== Sys2Proof/Machine/MemoryOps.lean ====
section
/-! DEFINITION. Machine/MemoryOps.lean: register store and load, BCD and font address (spec/44_memory_ops.md R150 to R154). The whole range is checked before anything is written (R57). -/

namespace Sys2Proof.Machine

/-- `Fx55` LD [I], Vx (R150). -/
def execStoreRegs (x : Nibble) (s : State) : Host.Outcome State Fault Refusal :=
  if s.outOfBounds (x.toNat + 1) then .next (s.raise .memoryOutOfBounds (encode (.storeRegs x)))
  else .next ((s.writeBytes (s.atI 0) (s.regsUpTo x)).bumpI x)

/-- `Fx65` LD Vx, [I] (R151). -/
def execLoadRegs (x : Nibble) (s : State) : Host.Outcome State Fault Refusal :=
  if s.outOfBounds (x.toNat + 1) then .next (s.raise .memoryOutOfBounds (encode (.loadRegs x)))
  else .next ((s.setRegs (fillRegs s.v 0 (s.readBytes (s.atI 0) (x.toNat + 1)))).bumpI x)

/-- `Fx33` LD B, Vx (R152). -/
def execLdB (x : Nibble) (s : State) : Host.Outcome State Fault Refusal :=
  if s.outOfBounds 3 then .next (s.raise .memoryOutOfBounds (encode (.ldB x)))
  else .next (s.writeBytes (s.atI 0) (bcdDigits (s.readV x)))

/-- `Fx29` LD F, Vx (R153). -/
def execLdF (x : Nibble) (s : State) : Host.Outcome State Fault Refusal :=
  .next (s.setI (glyphAddr s.cfg.fontBase (s.lowNibble x)))

end Sys2Proof.Machine
end

