-- ==== Sys2Proof/Machine/Skip.lean ====
section
/-! DEFINITION. Machine/Skip.lean: comparison and skip instructions (spec/42_skip.md R130 to R134). -/

namespace Sys2Proof.Machine

/-- The skip mechanism: pc advances by a further 2 when the condition holds (R134). -/
def State.skipIf (s : State) (c : Bool) : State := if c then s.skip else s

/-- `3xkk` SE Vx, byte (R130). -/
def execSeByte (x : Nibble) (kk : Byte) (s : State) : Host.Outcome State Fault Refusal :=
  .next (s.skipIf (s.readV x == kk))

/-- `4xkk` SNE Vx, byte (R131). -/
def execSneByte (x : Nibble) (kk : Byte) (s : State) : Host.Outcome State Fault Refusal :=
  .next (s.skipIf (s.readV x != kk))

/-- `5xy0` SE Vx, Vy (R132). -/
def execSeReg (x y : Nibble) (s : State) : Host.Outcome State Fault Refusal :=
  .next (s.skipIf (s.readV x == s.readV y))

/-- `9xy0` SNE Vx, Vy (R133). -/
def execSneReg (x y : Nibble) (s : State) : Host.Outcome State Fault Refusal :=
  .next (s.skipIf (s.readV x != s.readV y))

end Sys2Proof.Machine
end

