-- ==== Sys2Proof/Machine/TimerKeyRandom.lean ====
section
/-! DEFINITION. Machine/TimerKeyRandom.lean: timer, keypad and random-number instructions (spec/46_timer_key_random.md R175 to R181). -/

namespace Sys2Proof.Machine

/-- `Fx07` LD Vx, DT (R175). -/
def execLdVxDt (x : Nibble) (s : State) : Host.Outcome State Fault Refusal :=
  .next (s.setV x s.dt)

/-- `Fx15` LD DT, Vx (R176). -/
def execLdDtVx (x : Nibble) (s : State) : Host.Outcome State Fault Refusal :=
  .next (s.setDT (s.readV x))

/-- `Fx18` LD ST, Vx (R177). -/
def execLdStVx (x : Nibble) (s : State) : Host.Outcome State Fault Refusal :=
  .next (s.setST (s.readV x))

/-- `Fx0A` LD Vx, K (R178): with no key down the step stalls by undoing the advance; otherwise V[x] receives some
pressed key, a free choice (log 6). -/
def execLdVxK (x : Nibble) (s : State) : Host.Outcome State Fault Refusal :=
  match s.keysDown with
  | [] => .next (s.rewind.setLatch true x)
  | k :: ks => .next (((s.setV x (zextNibble (pickKey (k :: ks) s.draws))).setLatch false s.kwReg).tookDraw)

/-- `Ex9E` SKP Vx (R179). -/
def execSkp (x : Nibble) (s : State) : Host.Outcome State Fault Refusal :=
  .next (s.skipIf (s.keyDown (s.lowNibble x)))

/-- `ExA1` SKNP Vx (R180). -/
def execSknp (x : Nibble) (s : State) : Host.Outcome State Fault Refusal :=
  .next (s.skipIf (!s.keyDown (s.lowNibble x)))

/-- `Cxkk` RND Vx, byte (R181): a free byte (log 5) masked with kk. -/
def execRnd (x : Nibble) (kk : Byte) (s : State) : Host.Outcome State Fault Refusal :=
  .next ((s.setV x (Config.rand s.draws &&& kk)).tookDraw)

end Sys2Proof.Machine
end

