-- ==== Sys2Proof/Machine/Cycle.lean ====
section
/-! DEFINITION. Machine/Cycle.lean: the step cycle of the CPU Core (spec/30_encoding.md R75) and the interleaving of
the agents (spec/60_exceptions.md R216). -/

namespace Sys2Proof.Machine

/-- Decode and execute the word op, fetched at s.pc (R75): pc is advanced first, an illegal word raises
`DecodeError` (R86). -/
def runWord (op : Word) (s : State) : Host.Outcome State Fault Refusal :=
  match decodeWord op with
  | .instr i => exec i s.advance
  | .illegal _ => .next (s.advance.raise .decodeError op)

/-- `Step()` (R75): nothing in the fatal state (R207); refused at an odd pc where ODD_PC = refuse (R59); a fetch out of
bounds raises with pc left alone and no opcode (R56, R205); otherwise the fetched word runs. -/
def coreStep (s : State) : Host.Outcome State Fault Refusal :=
  let s := s.setChanged false
  if s.halted then .next s
  else if s.oddRefused then .refused .misalignedPc
  else
    match s.fetch with
    | none => .next (s.takeFatal .memoryOutOfBounds none s.pc)
    | some op => runWord op s

/-- One action of the agent whose turn it is. -/
def takeTurn (t : Turn) (s : State) : Host.Outcome State Fault Refusal :=
  match t with
  | .core => coreStep s
  | .tick => actTick s
  | .setKey index pressed => actSetKey index pressed s
  | .present => actPresent s
  | .stop => actStop s

/-- The agent that acts next: the head of the schedule, the core where it is empty. Log 3. -/
def State.nextTurn (s : State) : Turn := s.turns.headD .core

/-- One transition of the machine: after the stop signal none (R231); otherwise the next turn is taken off the schedule
and its agent acts (R216). -/
def cycle (s : State) : Host.Outcome State Fault Refusal :=
  if s.stopped then .fault .stopped
  else takeTurn s.nextTurn (s.setTurns s.turns.tail)

end Sys2Proof.Machine
end

