-- ==== Sys2Proof/Machine/Step.lean ====
section
/-! DEFINITION. Machine/Step.lean: the machine's step, and placing an instruction where it fetches next. -/

namespace Sys2Proof.Machine

/-- One transition of the machine (Machine/Cycle.lean). -/
def step (s : State) : Host.Outcome State Fault Refusal := cycle s

/-- The word numbered as spec/opcode_table.json numbers it, placed so that the next step runs it. Log 13. -/
def State.withFetchWord (s : State) (nbits w : Nat) : State := s.placeBytes (Sys2Proof.tableBytes nbits w)

end Sys2Proof.Machine
end

