-- ==== Sys2Proof/Machine/Executions.lean ====
section
/-! DEFINITION. Machine/Executions.lean: executions of whole steps, ticks and host actions without end, and the weak
fairness of the Timer Thread (spec/60_exceptions.md R216, spec/70_reset_and_hazards.md R255). Here the turn of each
transition comes from outside, one at a time, so that a tick can come infinitely often. Logs 3 and 25. -/

namespace Sys2Proof.Machine

/-- The agent that acts in each transition of an execution: any choice at all (R216). -/
abbrev Schedule := Nat → Turn

/-- The first N transitions of an execution: state n becomes state n + 1 by the step of the agent τ n (R216). -/
def ExecutionTo (τ : Schedule) (σ : Nat → State) (N : Nat) : Prop :=
  ∀ n : Nat, n < N → step ((σ n).setTurns [τ n]) = .next (σ (n + 1))

/-- An infinite execution: the host never stops it and no transition is refused (R216). -/
def Execution (τ : Schedule) (σ : Nat → State) : Prop := ∀ N : Nat, ExecutionTo τ σ N

/-- Weak fairness: the Timer Thread, whose tick is always possible (R219), ticks infinitely often (R216). -/
def WeaklyFair (τ : Schedule) : Prop := ∀ n : Nat, ∃ m : Nat, n ≤ m ∧ τ m = .tick

/-- The number of ticks among the first N transitions (R217). -/
def ticksBefore (τ : Schedule) : Nat → Nat
  | 0 => 0
  | N + 1 => ticksBefore τ N + if τ N = .tick then 1 else 0

/-- A step of the core in s executes the instruction i: no fatal state, no refusal at an odd pc, and the fetched word
decodes to i (R75). -/
def Executes (s : State) (i : Instr) : Prop :=
  s.fault = none ∧ s.oddRefused = false ∧ ∃ op : Word, s.fetch = some op ∧ decodeWord op = .instr i

end Sys2Proof.Machine
end

