-- ==== Sys2Proof/Safety.lean ====
section
/-! DEFINITION. Safety.lean: the terms in which claims are stated: frames, the fatal state, invariants, the program's
contract, the end of a run, the pixels of a sprite. -/

namespace Sys2Proof.Machine

/-! ### Frames -/

/-- The parts of the state (spec/10_state.md R36 and the lines of INVENTORY.md). -/
inductive Part where
  | v | i | pc | stack | dt | st | mem | disp | dirty | key | latch | fault | displayChanged | cfg | stopped | turns | draws
  deriving DecidableEq, Repr

/-- s and t hold the same in one part; registers, memory and stack are compared by what a read gives. -/
def AgreeOn (p : Part) (s t : State) : Prop :=
  match p with
  | .v => ∀ r : Nibble, t.readV r = s.readV r
  | .i => t.i = s.i
  | .pc => t.pc = s.pc
  | .stack => t.sp = s.sp ∧ ∀ (j : Nat) (h : j < 16), t.stack[j] = s.stack[j]
  | .dt => t.dt = s.dt
  | .st => t.st = s.st
  | .mem => ∀ a : Nat, t.readByte a = s.readByte a
  | .disp => t.disp = s.disp
  | .dirty => t.dirty = s.dirty
  | .key => ∀ k : Nibble, t.keyDown k = s.keyDown k
  | .latch => t.kwActive = s.kwActive ∧ t.kwReg = s.kwReg
  | .fault => t.fault = s.fault
  | .displayChanged => t.displayChanged = s.displayChanged
  | .cfg => t.cfg = s.cfg
  | .stopped => t.stopped = s.stopped
  | .turns => t.turns = s.turns
  | .draws => t.draws = s.draws

/-- Everything but the parts of ps is unchanged from s to t. -/
def FrameBut (ps : List Part) (s t : State) : Prop := ∀ p : Part, p ∉ ps → AgreeOn p s t

/-- Every register but those of rs is unchanged. -/
def RegsBut (rs : List Nibble) (s t : State) : Prop := ∀ r : Nibble, r ∉ rs → t.readV r = s.readV r

/-- Every byte of memory outside a, a + 1, ..., a + n - 1 is unchanged. -/
def MemBut (a n : Nat) (s t : State) : Prop := ∀ b : Nat, ¬(a ≤ b ∧ b < a + n) → t.readByte b = s.readByte b

/-! ### The fatal state (R205, R206) -/

/-- The machine is in the fatal state: never a successful end (R206, R250). -/
def State.fatal (s : State) : Prop := s.fault ≠ none

/-- t is s after raising kind at the instruction word op, with pc already advanced in s: the record names the fetch
address, the step result says halted, nothing else changes (R205, R206). -/
def Raised (kind : FatalKind) (op : Word) (s t : State) : Prop :=
  t.fault = some { kind := kind, opcode := some op, addr := s.pc - 2 } ∧
    t.displayChanged = false ∧ FrameBut [.fault, .displayChanged] s t

/-- The condition under which an instruction raises when it executes (R201). -/
def RaisesAt (i : Instr) (s : State) : Prop :=
  match i with
  | .call _ => s.sp.val = 16
  | .ret => s.sp.val = 0
  | .drw _ _ n => 0 < n.toNat ∧ s.i.toNat + n.toNat - 1 > 4095
  | .ldB _ => s.i.toNat + 2 > 4095
  | .storeRegs x => s.i.toNat + x.toNat > 4095
  | .loadRegs x => s.i.toNat + x.toNat > 4095
  | _ => False

/-- The fatal kind an instruction can raise (R200, R201). -/
def raiseKind (i : Instr) : FatalKind :=
  match i with
  | .call _ => .stackOverflow
  | .ret => .stackUnderflow
  | _ => .memoryOutOfBounds

/-! ### Who writes what (R21, R36) -/

/-- The parts an instruction may write. The four raising kinds may also write the fault record and the result. -/
def mayWrite (i : Instr) : List Part :=
  match i with
  | .cls => [.disp, .dirty, .displayChanged]
  | .drw _ _ _ => [.v, .disp, .dirty, .displayChanged, .fault]
  | .ret | .call _ => [.pc, .stack, .displayChanged, .fault]
  | .jp _ | .jpV0 _ => [.pc]
  | .seByte _ _ | .sneByte _ _ | .seReg _ _ | .sneReg _ _ | .skp _ | .sknp _ => [.pc]
  | .ldByte _ _ | .addByte _ _ | .ldReg _ _ | .orReg _ _ | .andReg _ _ | .xorReg _ _ => [.v]
  | .addReg _ _ | .subReg _ _ | .subnReg _ _ | .shr _ _ | .shl _ _ | .ldVxDt _ => [.v]
  | .rnd _ _ => [.v, .draws]
  | .ldVxK _ => [.v, .pc, .latch, .draws]
  | .ldDtVx _ => [.dt]
  | .ldStVx _ => [.st]
  | .ldI _ | .addI _ | .ldF _ => [.i]
  | .ldB _ => [.mem, .displayChanged, .fault]
  | .storeRegs _ => [.mem, .i, .displayChanged, .fault]
  | .loadRegs _ => [.v, .i, .displayChanged, .fault]

/-- The general registers an instruction may write (R21). -/
def mayWriteReg (i : Instr) (r : Nibble) : Prop :=
  match i with
  | .ldByte x _ | .addByte x _ | .rnd x _ | .ldVxDt x | .ldVxK x => r = x
  | .ldReg x _ | .orReg x _ | .andReg x _ | .xorReg x _ => r = x
  | .addReg x _ | .subReg x _ | .subnReg x _ | .shr x _ | .shl x _ => r = x ∨ r = vf
  | .drw _ _ _ => r = vf
  | .loadRegs x => r.toNat ≤ x.toNat
  | _ => False

/-! ### Invariants -/

/-- Memory is in its canonical form. -/
def MemoryCanonical (s : State) : Prop := Memory.wf s.cfg.fontBase s.mem = true

/-- R28: pc never exceeds 4350 and no stack entry exceeds 4096. -/
def PcInRange (s : State) : Prop :=
  s.pc.toNat ≤ 4350 ∧ ∀ (j : Nat) (h : j < 16), (s.stack[j]).toNat ≤ 4096

/-- R27: pc is even, and so is every valid return address. -/
def PcEven (s : State) : Prop :=
  s.pc.toNat % 2 = 0 ∧ ∀ (j : Nat) (h : j < 16), j < s.sp.val → (s.stack[j]).toNat % 2 = 0

/-- R252 item 1 for the instruction i about to execute in s: its jump or call target is even. -/
def InContract (i : Instr) (s : State) : Prop :=
  i.wellFormed = true ∧ ∀ nnn : Addr, i = .jpV0 nnn → (nnn.toNat + (s.readV 0).toNat) % 2 = 0

/-! ### Whose turn it is -/

/-- The core acts next and is not in the fatal state. -/
def CoreReady (s : State) : Prop := s.stopped = false ∧ s.nextTurn = .core ∧ s.fault = none

/-- The state in which the core begins a step of s: its turn is off the schedule and the step result is cleared. -/
def State.begun (s : State) : State := (s.setTurns s.turns.tail).setChanged false

/-- R250: pc holds the address of a 1nnn whose nnn equals that address. -/
def ParkedAt (s : State) (nnn : Addr) : Prop :=
  s.pc.toNat = nnn.toNat ∧ s.fetch = some (encode (.jp nnn))

/-! ### The pixels of a sprite (R161, R162) -/

/-- Dxyn, executed in s, has a set sprite bit that lands on the display pixel (px, py). -/
def SpriteCovers (s : State) (x y n : Nibble) (px py : Nat) : Prop :=
  ∃ r c : Nat, r < n.toNat ∧ c < 8 ∧ (s.readByte (s.i.toNat + r)).getLsbD (7 - c) = true ∧
    (if s.cfg.wrap then ((s.readV x).toNat + c) % 64 = px ∧ ((s.readV y).toNat + r) % 32 = py
      else (s.readV x).toNat + c = px ∧ (s.readV y).toNat + r = py)

end Sys2Proof.Machine
end

