-- ==== Sys2Proof/Certificates/Slice0/Obligations.lean ====
section
/-! DEFINITION. Certificates/Slice0/Obligations.lean: the statements for the provers. Each docstring names the rules of
spec/ it formalises. A per-instruction statement says: the word decodes to the instruction, exec answers a next state,
what that state holds, and that everything else is unchanged (`FrameBut`, Safety.lean). In all of them pc is already
advanced to a + 2, as the step cycle leaves it (R75), so "pc unchanged" means a + 2. -/

open Sys2Proof Sys2Proof.Machine

/-! ### Loads and arithmetic -/

/-- R100. -/
def Obligations.LdByteLoadsConstant : Prop :=
  ∀ (x : Nibble) (kk : Byte) (s : State),
    decodeWord (0x6#4 ++ x ++ kk) = .instr (.ldByte x kk) ∧
    ∃ t, exec (.ldByte x kk) s = .next t ∧ t.readV x = kk ∧ RegsBut [x] s t ∧ FrameBut [.v] s t

/-- R101. -/
def Obligations.LdRegCopiesRegister : Prop :=
  ∀ (x y : Nibble) (s : State),
    decodeWord (0x8#4 ++ x ++ y ++ 0x0#4) = .instr (.ldReg x y) ∧
    ∃ t, exec (.ldReg x y) s = .next t ∧ t.readV x = s.readV y ∧ RegsBut [x] s t ∧ FrameBut [.v] s t

/-- R102. -/
def Obligations.LdILoadsAddress : Prop :=
  ∀ (nnn : Addr) (s : State),
    decodeWord (0xA#4 ++ nnn) = .instr (.ldI nnn) ∧
    ∃ t, exec (.ldI nnn) s = .next t ∧ t.i.toNat = nnn.toNat ∧ FrameBut [.i] s t

/-- R103. -/
def Obligations.AddByteWrapsWithoutFlag : Prop :=
  ∀ (x : Nibble) (kk : Byte) (s : State),
    decodeWord (0x7#4 ++ x ++ kk) = .instr (.addByte x kk) ∧
    ∃ t, exec (.addByte x kk) s = .next t ∧
      (t.readV x).toNat = ((s.readV x).toNat + kk.toNat) % 256 ∧ RegsBut [x] s t ∧ FrameBut [.v] s t

/-- R104. For x = 15 the flag is what remains (the spec's decision D15, log 17). -/
def Obligations.AddRegSetsCarry : Prop :=
  ∀ (x y : Nibble) (s : State),
    decodeWord (0x8#4 ++ x ++ y ++ 0x4#4) = .instr (.addReg x y) ∧
    ∃ t, exec (.addReg x y) s = .next t ∧
      (x ≠ vf → (t.readV x).toNat = ((s.readV x).toNat + (s.readV y).toNat) % 256) ∧
      t.readV vf = (if (s.readV x).toNat + (s.readV y).toNat > 255 then 1 else 0) ∧
      RegsBut [x, vf] s t ∧ FrameBut [.v] s t

/-- R105. For x = 15 the flag is what remains (D15), and equality gives no borrow (D16); log 17. -/
def Obligations.SubRegSetsNoBorrow : Prop :=
  ∀ (x y : Nibble) (s : State),
    decodeWord (0x8#4 ++ x ++ y ++ 0x5#4) = .instr (.subReg x y) ∧
    ∃ t, exec (.subReg x y) s = .next t ∧
      (x ≠ vf → ((t.readV x).toNat : Int) = ((s.readV x).toNat - (s.readV y).toNat : Int) % 256) ∧
      t.readV vf = (if (s.readV x).toNat ≥ (s.readV y).toNat then 1 else 0) ∧
      RegsBut [x, vf] s t ∧ FrameBut [.v] s t

/-- R106. As R105, with the operands exchanged (D15, D16; log 17). -/
def Obligations.SubnRegSetsNoBorrow : Prop :=
  ∀ (x y : Nibble) (s : State),
    decodeWord (0x8#4 ++ x ++ y ++ 0x7#4) = .instr (.subnReg x y) ∧
    ∃ t, exec (.subnReg x y) s = .next t ∧
      (x ≠ vf → ((t.readV x).toNat : Int) = ((s.readV y).toNat - (s.readV x).toNat : Int) % 256) ∧
      t.readV vf = (if (s.readV y).toNat ≥ (s.readV x).toNat then 1 else 0) ∧
      RegsBut [x, vf] s t ∧ FrameBut [.v] s t

/-- R107. That no flag is written rests on the spec's decision D20 (log 17). -/
def Obligations.AddIWrapsAtSixteenBits : Prop :=
  ∀ (x : Nibble) (s : State),
    decodeWord (0xF#4 ++ x ++ 0x1E#8) = .instr (.addI x) ∧
    ∃ t, exec (.addI x) s = .next t ∧
      t.i.toNat = (s.i.toNat + (s.readV x).toNat) % 65536 ∧ FrameBut [.i] s t

/-! ### Bitwise and shifts -/

/-- R120, R121, R122: each bit of V[x] is the or, the and, the exclusive or of the operands' bits; VF is not written as
a flag (the spec's decision D18, log 17). -/
def Obligations.LogicalInstructionsCombineBits : Prop :=
  ∀ (x y : Nibble) (s : State),
    (decodeWord (0x8#4 ++ x ++ y ++ 0x1#4) = .instr (.orReg x y) ∧
      ∃ t, exec (.orReg x y) s = .next t ∧
        (∀ b : Nat, (t.readV x).getLsbD b = ((s.readV x).getLsbD b || (s.readV y).getLsbD b)) ∧
        RegsBut [x] s t ∧ FrameBut [.v] s t) ∧
    (decodeWord (0x8#4 ++ x ++ y ++ 0x2#4) = .instr (.andReg x y) ∧
      ∃ t, exec (.andReg x y) s = .next t ∧
        (∀ b : Nat, (t.readV x).getLsbD b = ((s.readV x).getLsbD b && (s.readV y).getLsbD b)) ∧
        RegsBut [x] s t ∧ FrameBut [.v] s t) ∧
    (decodeWord (0x8#4 ++ x ++ y ++ 0x3#4) = .instr (.xorReg x y) ∧
      ∃ t, exec (.xorReg x y) s = .next t ∧
        (∀ b : Nat, (t.readV x).getLsbD b = ((s.readV x).getLsbD b ^^ (s.readV y).getLsbD b)) ∧
        RegsBut [x] s t ∧ FrameBut [.v] s t)

/-- R123. The source is V[y] or V[x] as SHIFT_USES_VY says (the spec's decision D17, log 22); for x = 15 the flag is what
remains (D15, log 17). -/
def Obligations.ShrShiftsRightByOne : Prop :=
  ∀ (x y : Nibble) (s : State),
    decodeWord (0x8#4 ++ x ++ y ++ 0x6#4) = .instr (.shr x y) ∧
    ∃ t, exec (.shr x y) s = .next t ∧
      (x ≠ vf → (t.readV x).toNat = (s.readV (if s.cfg.shiftUsesVy then y else x)).toNat / 2) ∧
      (t.readV vf).toNat = (s.readV (if s.cfg.shiftUsesVy then y else x)).toNat % 2 ∧
      RegsBut [x, vf] s t ∧ FrameBut [.v] s t

/-- R124. As R123 (D17, log 22; D15, log 17). -/
def Obligations.ShlShiftsLeftByOne : Prop :=
  ∀ (x y : Nibble) (s : State),
    decodeWord (0x8#4 ++ x ++ y ++ 0xE#4) = .instr (.shl x y) ∧
    ∃ t, exec (.shl x y) s = .next t ∧
      (x ≠ vf → (t.readV x).toNat = (s.readV (if s.cfg.shiftUsesVy then y else x)).toNat * 2 % 256) ∧
      (t.readV vf).toNat = (s.readV (if s.cfg.shiftUsesVy then y else x)).toNat / 128 ∧
      RegsBut [x, vf] s t ∧ FrameBut [.v] s t

/-! ### Skips -/

/-- R130. -/
def Obligations.SeByteSkipsIfEqual : Prop :=
  ∀ (x : Nibble) (kk : Byte) (s : State),
    decodeWord (0x3#4 ++ x ++ kk) = .instr (.seByte x kk) ∧
    ∃ t, exec (.seByte x kk) s = .next t ∧
      t.pc = (if s.readV x = kk then s.pc + 2 else s.pc) ∧ FrameBut [.pc] s t

/-- R131. -/
def Obligations.SneByteSkipsIfDifferent : Prop :=
  ∀ (x : Nibble) (kk : Byte) (s : State),
    decodeWord (0x4#4 ++ x ++ kk) = .instr (.sneByte x kk) ∧
    ∃ t, exec (.sneByte x kk) s = .next t ∧
      t.pc = (if s.readV x = kk then s.pc else s.pc + 2) ∧ FrameBut [.pc] s t

/-- R132. -/
def Obligations.SeRegSkipsIfEqual : Prop :=
  ∀ (x y : Nibble) (s : State),
    decodeWord (0x5#4 ++ x ++ y ++ 0x0#4) = .instr (.seReg x y) ∧
    ∃ t, exec (.seReg x y) s = .next t ∧
      t.pc = (if s.readV x = s.readV y then s.pc + 2 else s.pc) ∧ FrameBut [.pc] s t

/-- R133. -/
def Obligations.SneRegSkipsIfDifferent : Prop :=
  ∀ (x y : Nibble) (s : State),
    decodeWord (0x9#4 ++ x ++ y ++ 0x0#4) = .instr (.sneReg x y) ∧
    ∃ t, exec (.sneReg x y) s = .next t ∧
      t.pc = (if s.readV x = s.readV y then s.pc else s.pc + 2) ∧ FrameBut [.pc] s t

/-! ### Control transfer -/

/-- R140. -/
def Obligations.JpGoesToConstant : Prop :=
  ∀ (nnn : Addr) (s : State),
    decodeWord (0x1#4 ++ nnn) = .instr (.jp nnn) ∧
    ∃ t, exec (.jp nnn) s = .next t ∧ t.pc.toNat = nnn.toNat ∧ FrameBut [.pc] s t

/-- R141: the sum is not reduced modulo 4096. That V0 is the offset is the spec's decision D21 (log 22). -/
def Obligations.JpV0AddsRegisterZero : Prop :=
  ∀ (nnn : Addr) (s : State),
    decodeWord (0xB#4 ++ nnn) = .instr (.jpV0 nnn) ∧
    ∃ t, exec (.jpV0 nnn) s = .next t ∧ t.pc.toNat = nnn.toNat + (s.readV 0).toNat ∧ FrameBut [.pc] s t

/-- R142. A full stack raises; otherwise the return address is pushed and pc goes to the target. That 16 entries are full
is the spec's decision D39, SP as the depth is D7 (log 21). That nothing else changes on a raise (D11, log 20) and that the record
holds the fetch address (R200, R206; D12, log 14) are the spec's decisions. -/
def Obligations.CallPushesReturnAddress : Prop :=
  ∀ (nnn : Addr) (s : State),
    decodeWord (0x2#4 ++ nnn) = .instr (.call nnn) ∧
    (s.sp.val = 16 → ∃ t, exec (.call nnn) s = .next t ∧ Raised .stackOverflow (0x2#4 ++ nnn) s t) ∧
    (s.sp.val < 16 → ∃ t, exec (.call nnn) s = .next t ∧ t.sp.val = s.sp.val + 1 ∧
      (∀ (j : Nat) (h : j < 16), t.stack[j] = if j = s.sp.val then s.pc else s.stack[j]) ∧
      t.pc.toNat = nnn.toNat ∧ FrameBut [.pc, .stack] s t)

/-- R143. An empty stack raises; otherwise pc is the newest entry, which is not erased. SP as the depth
and stale entries kept are the spec's decision D7 (log 21). That nothing else changes on a raise (D11, log 20) and that the record
holds the fetch address (R200, R206; D12, log 14) are the spec's decisions. -/
def Obligations.RetPopsReturnAddress : Prop :=
  ∀ s : State,
    decodeWord 0x00EE#16 = .instr .ret ∧
    (s.sp.val = 0 → ∃ t, exec .ret s = .next t ∧ Raised .stackUnderflow 0x00EE#16 s t) ∧
    (0 < s.sp.val → ∃ t, exec .ret s = .next t ∧ t.sp.val + 1 = s.sp.val ∧
      (∀ (j : Nat) (h : j < 16), t.stack[j] = s.stack[j]) ∧
      (∀ h : t.sp.val < 16, t.pc = s.stack[t.sp.val]) ∧ FrameBut [.pc, .stack] s t)

/-- A CALL directly followed by a RET comes back to the address after the CALL with the depth unchanged (source
property S2; 95_test_vectors.md). -/
def Obligations.CallThenRetComesBack : Prop :=
  ∀ (nnn : Addr) (target : Word) (s t : State), s.sp.val < 16 → exec (.call nnn) s = .next t →
    ∃ u, exec .ret (t.setPc target) = .next u ∧ u.pc = s.pc ∧ u.sp = s.sp ∧ FrameBut [.pc, .stack] s u

/-! ### Memory instructions -/

/-- R150. The stored bytes are those at I to I + x, and only those change. That nothing is stored on a raise and that I
follows LOADSTORE_INC_I are the spec's decisions D11 and D19 (logs 20, 22), that addresses do not wrap is D34 (log 20), and that the
record holds the fetch address (R200, R206) is D12 (log 14). -/
def Obligations.StoreRegsWritesRange : Prop :=
  ∀ (x : Nibble) (s : State),
    decodeWord (0xF#4 ++ x ++ 0x55#8) = .instr (.storeRegs x) ∧
    (s.i.toNat + x.toNat > 4095 →
      ∃ t, exec (.storeRegs x) s = .next t ∧ Raised .memoryOutOfBounds (0xF#4 ++ x ++ 0x55#8) s t) ∧
    (s.i.toNat + x.toNat ≤ 4095 → ∃ t, exec (.storeRegs x) s = .next t ∧
      (∀ k : Nat, k ≤ x.toNat → t.readByte (s.i.toNat + k) = s.readV (BitVec.ofNat 4 k)) ∧
      MemBut s.i.toNat (x.toNat + 1) s t ∧
      t.i.toNat = (if s.cfg.loadStoreIncI then (s.i.toNat + x.toNat + 1) % 65536 else s.i.toNat) ∧
      FrameBut [.mem, .i] s t)

/-- R151. As R150 (D11, D34, log 20; D19, log 22; D12, log 14). -/
def Obligations.LoadRegsReadsRange : Prop :=
  ∀ (x : Nibble) (s : State),
    decodeWord (0xF#4 ++ x ++ 0x65#8) = .instr (.loadRegs x) ∧
    (s.i.toNat + x.toNat > 4095 →
      ∃ t, exec (.loadRegs x) s = .next t ∧ Raised .memoryOutOfBounds (0xF#4 ++ x ++ 0x65#8) s t) ∧
    (s.i.toNat + x.toNat ≤ 4095 → ∃ t, exec (.loadRegs x) s = .next t ∧
      (∀ r : Nibble, t.readV r = if r.toNat ≤ x.toNat then s.readByte (s.i.toNat + r.toNat) else s.readV r) ∧
      t.i.toNat = (if s.cfg.loadStoreIncI then (s.i.toNat + x.toNat + 1) % 65536 else s.i.toNat) ∧
      FrameBut [.v, .i] s t)

/-- R152. That the whole range is checked before any write and addresses do not wrap (D11, D34, log 20), and that the record
holds the fetch address (R200, R206; D12, log 14), are the spec's decisions. -/
def Obligations.LdBStoresDecimalDigits : Prop :=
  ∀ (x : Nibble) (s : State),
    decodeWord (0xF#4 ++ x ++ 0x33#8) = .instr (.ldB x) ∧
    (s.i.toNat + 2 > 4095 →
      ∃ t, exec (.ldB x) s = .next t ∧ Raised .memoryOutOfBounds (0xF#4 ++ x ++ 0x33#8) s t) ∧
    (s.i.toNat + 2 ≤ 4095 → ∃ t, exec (.ldB x) s = .next t ∧
      (t.readByte s.i.toNat).toNat = (s.readV x).toNat / 100 ∧
      (t.readByte (s.i.toNat + 1)).toNat = (s.readV x).toNat / 10 % 10 ∧
      (t.readByte (s.i.toNat + 2)).toNat = (s.readV x).toNat % 10 ∧
      MemBut s.i.toNat 3 s t ∧ FrameBut [.mem] s t)

/-- R153. Only the low nibble of V[x] selects the glyph (the spec's decision D22, log 18). -/
def Obligations.LdFPointsAtGlyph : Prop :=
  ∀ (x : Nibble) (s : State),
    decodeWord (0xF#4 ++ x ++ 0x29#8) = .instr (.ldF x) ∧
    ∃ t, exec (.ldF x) s = .next t ∧
      t.i.toNat = s.cfg.fontBase.val + 5 * ((s.readV x).toNat % 16) ∧ FrameBut [.i] s t

/-- A store of registers is seen by the next fetch (R65): where the next two bytes to fetch lie in the stored range, the
fetched word is made of the stored registers. -/
def Obligations.StoreIsSeenByNextFetch : Prop :=
  ∀ (x : Nibble) (p : Word) (s t : State), s.i.toNat + x.toNat ≤ 4095 →
    s.i.toNat ≤ p.toNat → p.toNat + 1 ≤ s.i.toNat + x.toNat → exec (.storeRegs x) s = .next t →
    ∃ op, (t.setPc p).fetch = some op ∧
      op.toNat = (s.readV (BitVec.ofNat 4 (p.toNat - s.i.toNat))).toNat * 256 +
        (s.readV (BitVec.ofNat 4 (p.toNat + 1 - s.i.toNat))).toNat

/-! ### Display -/

/-- R160. That a blank display gives no change is the spec's decision D29 (log 19). -/
def Obligations.ClsClearsDisplay : Prop :=
  ∀ s : State,
    decodeWord 0x00E0#16 = .instr .cls ∧
    ∃ t, exec .cls s = .next t ∧
      (∀ y x (h : y < 32 ∧ x < 64), pixelAt t.disp y x h = false) ∧
      (t.displayChanged = true ↔ ∃ y x, ∃ h : y < 32 ∧ x < 64, pixelAt s.disp y x h = true) ∧
      t.dirty = (s.dirty || t.displayChanged) ∧ FrameBut [.disp, .dirty, .displayChanged] s t

/-- R161. A pixel is inverted exactly if a set sprite bit lands on it (`SpriteCovers`); VF is the collision; the dirty
flag and the step result say whether any set sprite bit was on the grid; out of bounds nothing but the fault record
changes. No reduction of the start coordinate, the raise for a clipped row and the directions are the spec's decisions
D26, D27 and D28 (log 19), that a raise changes nothing else and addresses do not wrap D11 and D34 (log 20), that the
record holds the fetch address (R200, R206) D12 (log 14), and when display_changed is set D29 (log 19). -/
def Obligations.DrwXorsSprite : Prop :=
  ∀ (x y n : Nibble) (s : State),
    decodeWord (0xD#4 ++ x ++ y ++ n) = .instr (.drw x y n) ∧
    (0 < n.toNat ∧ s.i.toNat + n.toNat - 1 > 4095 →
      ∃ t, exec (.drw x y n) s = .next t ∧ Raised .memoryOutOfBounds (0xD#4 ++ x ++ y ++ n) s t) ∧
    (¬(0 < n.toNat ∧ s.i.toNat + n.toNat - 1 > 4095) → ∃ t, exec (.drw x y n) s = .next t ∧
      (∀ py px (h : py < 32 ∧ px < 64),
        pixelAt t.disp py px h ≠ pixelAt s.disp py px h ↔ SpriteCovers s x y n px py) ∧
      (t.readV vf = 0 ∨ t.readV vf = 1) ∧
      (t.readV vf = 1 ↔
        ∃ py px, ∃ h : py < 32 ∧ px < 64, SpriteCovers s x y n px py ∧ pixelAt s.disp py px h = true) ∧
      (t.displayChanged = true ↔ ∃ py px, (py < 32 ∧ px < 64) ∧ SpriteCovers s x y n px py) ∧
      t.dirty = (s.dirty || t.displayChanged) ∧
      RegsBut [vf] s t ∧ FrameBut [.v, .disp, .dirty, .displayChanged] s t)

/-- Drawing the identical sprite at the identical coordinates twice restores the display, and the second draw's VF is 1
exactly if the first draw left a pixel of the sprite set (source property S3). -/
def Obligations.DrawingTwiceRestoresDisplay : Prop :=
  ∀ (x y n : Nibble) (s t : State),
    ¬(0 < n.toNat ∧ s.i.toNat + n.toNat - 1 > 4095) → exec (.drw x y n) s = .next t →
    t.readV x = s.readV x → t.readV y = s.readV y →
    ∃ u, exec (.drw x y n) t = .next u ∧ u.disp = s.disp ∧
      (u.readV vf = 1 ↔
        ∃ py px, ∃ h : py < 32 ∧ px < 64, SpriteCovers s x y n px py ∧ pixelAt t.disp py px h = true)

/-! ### Timers, keys, random -/

/-- R175. -/
def Obligations.LdVxDtReadsDelayTimer : Prop :=
  ∀ (x : Nibble) (s : State),
    decodeWord (0xF#4 ++ x ++ 0x07#8) = .instr (.ldVxDt x) ∧
    ∃ t, exec (.ldVxDt x) s = .next t ∧ t.readV x = s.dt ∧ RegsBut [x] s t ∧ FrameBut [.v] s t

/-- R176. -/
def Obligations.LdDtVxSetsDelayTimer : Prop :=
  ∀ (x : Nibble) (s : State),
    decodeWord (0xF#4 ++ x ++ 0x15#8) = .instr (.ldDtVx x) ∧
    ∃ t, exec (.ldDtVx x) s = .next t ∧ t.dt = s.readV x ∧ FrameBut [.dt] s t

/-- R177, with `sound_active` as the spec decides it (D32, log 27). -/
def Obligations.LdStVxSetsSoundTimer : Prop :=
  ∀ (x : Nibble) (s : State),
    decodeWord (0xF#4 ++ x ++ 0x18#8) = .instr (.ldStVx x) ∧
    ∃ t, exec (.ldStVx x) s = .next t ∧ t.st = s.readV x ∧
      (t.soundActive = true ↔ (s.readV x).toNat ≠ 0) ∧ FrameBut [.st] s t

/-- R178. With no key down the advance is undone and the latch is set; otherwise V[x] holds the index of some pressed
key. Which one is a free value (log 6), so nothing more is said of it, and `draws` is the
model's own counter of free values (log 11). The level-sensitive test and the latch are the spec's
decisions D24 and D25 (log 24). -/
def Obligations.LdVxKWaitsForKey : Prop :=
  ∀ (x : Nibble) (s : State),
    decodeWord (0xF#4 ++ x ++ 0x0A#8) = .instr (.ldVxK x) ∧
    ((∀ k : Nibble, s.keyDown k = false) → ∃ t, exec (.ldVxK x) s = .next t ∧
      t.pc = s.pc - 2 ∧ t.kwActive = true ∧ t.kwReg = x ∧ FrameBut [.pc, .latch] s t) ∧
    ((∃ k : Nibble, s.keyDown k = true) → ∃ t, exec (.ldVxK x) s = .next t ∧
      (∃ k : Nibble, s.keyDown k = true ∧ (t.readV x).toNat = k.toNat) ∧ RegsBut [x] s t ∧
      t.kwActive = false ∧ t.kwReg = s.kwReg ∧ t.draws = s.draws + 1 ∧ FrameBut [.v, .latch, .draws] s t)

/-- R179. Only the low nibble of V[x] selects the key (the spec's decision D23, log 18). -/
def Obligations.SkpSkipsIfKeyDown : Prop :=
  ∀ (x : Nibble) (s : State),
    decodeWord (0xE#4 ++ x ++ 0x9E#8) = .instr (.skp x) ∧
    ∃ t, exec (.skp x) s = .next t ∧
      (∀ k : Nibble, k.toNat = (s.readV x).toNat % 16 →
        t.pc = if s.keyDown k = true then s.pc + 2 else s.pc) ∧ FrameBut [.pc] s t

/-- R180. The exact complement of R179 (low nibble: D23, log 18). -/
def Obligations.SknpSkipsIfKeyUp : Prop :=
  ∀ (x : Nibble) (s : State),
    decodeWord (0xE#4 ++ x ++ 0xA1#8) = .instr (.sknp x) ∧
    ∃ t, exec (.sknp x) s = .next t ∧
      (∀ k : Nibble, k.toNat = (s.readV x).toNat % 16 →
        t.pc = if s.keyDown k = true then s.pc else s.pc + 2) ∧ FrameBut [.pc] s t

/-- R181. The drawn byte is a free value (log 5): V[x] is some byte masked with kk, so no bit outside the mask is set.
`draws` is the model's own counter of free values (log 11): the spec's decision D33 leaves the draw free, and its form is the
model's choice. -/
def Obligations.RndMasksFreeByte : Prop :=
  ∀ (x : Nibble) (kk : Byte) (s : State),
    decodeWord (0xC#4 ++ x ++ kk) = .instr (.rnd x kk) ∧
    ∃ t, exec (.rnd x kk) s = .next t ∧
      t.readV x = Config.rand s.draws &&& kk ∧ t.readV x &&& ~~~kk = 0 ∧ t.draws = s.draws + 1 ∧
      RegsBut [x] s t ∧ FrameBut [.v, .draws] s t

/-! ### The step cycle, the fatal state, the agents -/

/-- R75: where the bytes at pc decode to an instruction i and the core's turn has come, step is exec of i on the state
with the turn taken off the schedule, the step result cleared and pc advanced by 2. The schedule is the model's own
(log 3). -/
def Obligations.StepRunsDecodedInstruction : Prop :=
  ∀ (s : State) (i : Instr), CoreReady s → (s.pc.toNat % 2 = 0 ∨ s.cfg.oddPc = .execute) → s.pc.toNat ≤ 4094 →
    decode [s.readByte s.pc.toNat, s.readByte (s.pc.toNat + 1)] = .ok (i, []) →
    step s = exec i (s.begun.setPc (s.pc + 2))

/-- R56: a fetch at pc ≥ 4095 raises, with the opcode absent and pc not advanced (R205). The record's address is the spec's
decision D12 (log 14). -/
def Obligations.FetchOutOfBoundsRaises : Prop :=
  ∀ s : State, CoreReady s → (s.pc.toNat % 2 = 0 ∨ s.cfg.oddPc = .execute) → 4095 ≤ s.pc.toNat →
    ∃ t, step s = .next t ∧
      t.fault = some { kind := .memoryOutOfBounds, opcode := none, addr := s.pc } ∧ t.displayChanged = false ∧
      FrameBut [.fault, .displayChanged, .turns] s t

/-- R206 for a word of the illegal set: the record holds the opcode and the fetch address, and only pc keeps its advance
(R205; the spec's decisions D9, D11, D12: logs 14, 20, 23). -/
def Obligations.IllegalWordRaisesDecodeError : Prop :=
  ∀ (s : State) (op : Word) (why : Reject), CoreReady s → (s.pc.toNat % 2 = 0 ∨ s.cfg.oddPc = .execute) →
    s.fetch = some op → decodeWord op = .illegal why →
    ∃ t, step s = .next t ∧
      t.fault = some { kind := .decodeError, opcode := some op, addr := s.pc } ∧ t.displayChanged = false ∧
      t.pc = s.pc + 2 ∧ FrameBut [.fault, .displayChanged, .turns, .pc] s t

/-- R59 with ODD_PC = refuse: a step at an odd pc has no meaning (the spec's decision D10, log 7). -/
def Obligations.OddPcIsRefused : Prop :=
  ∀ s : State, CoreReady s → s.pc.toNat % 2 = 1 → s.cfg.oddPc = .refuse → step s = .refused .misalignedPc

/-- R207: in the fatal state a step of the core, at any pc, answers a next state in which nothing has changed and which
reports the recorded result again (the spec's decision D13, log 2); and no agent's action changes V, I, pc, the stack,
memory, the display, the latch or the fault record. The step result and the schedule are the model's outputs and
bookkeeping (logs 3, 8). -/
def Obligations.FatalStateIsTerminal : Prop :=
  ∀ s : State, s.fatal →
    (s.stopped = false → s.nextTurn = .core →
      ∃ t, step s = .next t ∧ t.result = { displayChanged := false, halted := true, fatal := s.fault } ∧
        FrameBut [.displayChanged, .turns] s t) ∧
    (∀ t : State, step s = .next t → FrameBut [.dt, .st, .dirty, .key, .displayChanged, .stopped, .turns] s t)

/-- R201 (which the spec marks as derived): exactly which instructions raise, and when. The conditions
are those of R200, R142, R143 and R57; that 16 entries are full is the spec's decision D39 (log 21), that a clipped row
raises D27 (log 19), that addresses do not wrap D34 (log 20). -/
def Obligations.InstructionsRaiseExactlyWhen : Prop :=
  ∀ (i : Instr) (s t : State), s.fault = none → exec i s = .next t → (t.fault ≠ none ↔ RaisesAt i s)

/-- R205: an instruction that raises performs none of its writes, and the record names it (the spec's decisions D11
and D12; logs 14, 20). -/
def Obligations.RaisingInstructionIsPrecise : Prop :=
  ∀ (i : Instr) (s t : State), exec i s = .next t → RaisesAt i s → Raised (raiseKind i) (encode i) s t

/-- R215 and R216: a scheduled tick decrements each timer that is above zero, in any state, and touches nothing else
(one tick for both timers is the spec's decision D30, log 25; the schedule is the model's own, log 3). -/
def Obligations.TickDecrementsTimers : Prop :=
  ∀ s : State, s.stopped = false → s.nextTurn = .tick →
    ∃ t, step s = .next t ∧ t.dt.toNat = s.dt.toNat - 1 ∧ t.st.toNat = s.st.toNat - 1 ∧
      FrameBut [.dt, .st, .turns] s t

/-- R217 (which the spec marks as derived), in two parts. Directly after an instruction writes a timer, k ticks run and
leave max(v - k, 0) in it. And after any further N transitions, of any agents in any order (`ExecutionTo`), among which
the core executes no instruction that writes that timer, it holds max(v - t, 0) for the t ticks among them. -/
def Obligations.TimerHoldsValueMinusTicks : Prop :=
  (∀ (x : Nibble) (s t : State) (k : Nat) (rest : List Turn), s.stopped = false →
    (exec (.ldDtVx x) s = .next t →
      ∃ u, core.run k (t.setTurns (List.replicate k .tick ++ rest)) = .next u ∧
        u.dt.toNat = (s.readV x).toNat - k ∧ u.turns = rest) ∧
    (exec (.ldStVx x) s = .next t →
      ∃ u, core.run k (t.setTurns (List.replicate k .tick ++ rest)) = .next u ∧
        u.st.toNat = (s.readV x).toNat - k ∧ u.turns = rest)) ∧
  (∀ (x : Nibble) (s : State) (τ : Schedule) (σ : Nat → State) (N : Nat), ExecutionTo τ σ N →
    (exec (.ldDtVx x) s = .next (σ 0) →
      (∀ n : Nat, n < N → τ n = .core → ∀ y : Nibble, ¬Executes (σ n) (.ldDtVx y)) →
      (σ N).dt.toNat = (s.readV x).toNat - ticksBefore τ N) ∧
    (exec (.ldStVx x) s = .next (σ 0) →
      (∀ n : Nat, n < N → τ n = .core → ∀ y : Nibble, ¬Executes (σ n) (.ldStVx y)) →
      (σ N).st.toNat = (s.readV x).toNat - ticksBefore τ N))

/-- R228: set_key_pressed writes one flag and nothing else; an index of 16 or more is refused (the
spec's choice C7, log 16). -/
def Obligations.SetKeyWritesOneFlag : Prop :=
  ∀ (s : State) (index : Nat) (pressed : Bool), s.stopped = false → s.nextTurn = .setKey index pressed →
    (index < 16 → ∃ t, step s = .next t ∧
      (∀ k : Nibble, t.keyDown k = if k.toNat = index then pressed else s.keyDown k) ∧ FrameBut [.key, .turns] s t) ∧
    (16 ≤ index → step s = .refused (.keyIndexOutOfRange index))

/-- R229 and R231: presenting a frame clears the dirty flag and nothing else; after the stop signal no agent acts again. -/
def Obligations.PresentAndStop : Prop :=
  ∀ s : State, s.stopped = false →
    (s.nextTurn = .present → ∃ t, step s = .next t ∧ t.dirty = false ∧ FrameBut [.dirty, .turns] s t) ∧
    (s.nextTurn = .stop → ∃ t, step s = .next t ∧ step t = .fault .stopped ∧ FrameBut [.stopped, .turns] s t)

/-- R250 (the spec's decision D38, log 30): a step of the core parked on a self-jump changes no state (but the step result and the schedule, logs 3, 8). -/
def Obligations.SelfJumpChangesNothing : Prop :=
  ∀ (s : State) (nnn : Addr), CoreReady s → (s.pc.toNat % 2 = 0 ∨ s.cfg.oddPc = .execute) → ParkedAt s nnn →
    ∃ t, step s = .next t ∧ t.displayChanged = false ∧ FrameBut [.displayChanged, .turns] s t

/-! ### Reset and construction -/

/-- R38 for a ROM of length 0 and the defaults: the values after construction. `turns`, `draws`, `stopped` and
`displayChanged` are the model's own (logs 3, 8, 9, 11) and not part of this statement. Zero registers, stack, display,
keypad and latch, and the font's bytes (the 80 of R53, written out) and place, are the spec's decisions D1 to D3, D5, D6 and D25 (logs 10, 12). -/
def Obligations.ResetState : Prop :=
  (∀ r : Nibble, State.reset.readV r = 0) ∧ State.reset.i = 0 ∧ State.reset.pc = 512 ∧ State.reset.sp.val = 0 ∧
  (∀ (j : Nat) (h : j < 16), State.reset.stack[j] = 0) ∧ State.reset.dt = 0 ∧ State.reset.st = 0 ∧
  (∀ a : Nat, State.reset.readByte a = font.getD a 0) ∧
  font =
    [0xF0, 0x90, 0x90, 0x90, 0xF0, 0x20, 0x60, 0x20, 0x20, 0x70, 0xF0, 0x10, 0xF0, 0x80, 0xF0, 0xF0, 0x10, 0xF0, 0x10, 0xF0] ++
    [0x90, 0x90, 0xF0, 0x10, 0x10, 0xF0, 0x80, 0xF0, 0x10, 0xF0, 0xF0, 0x80, 0xF0, 0x90, 0xF0, 0xF0, 0x10, 0x20, 0x40, 0x40] ++
    [0xF0, 0x90, 0xF0, 0x90, 0xF0, 0xF0, 0x90, 0xF0, 0x10, 0xF0, 0xF0, 0x90, 0xF0, 0x90, 0x90, 0xE0, 0x90, 0xE0, 0x90, 0xE0] ++
    [0xF0, 0x80, 0x80, 0x80, 0xF0, 0xE0, 0x90, 0x90, 0x90, 0xE0, 0xF0, 0x80, 0xF0, 0x80, 0xF0, 0xF0, 0x80, 0xF0, 0x80, 0x80] ∧
  (∀ y x (h : y < 32 ∧ x < 64), pixelAt State.reset.disp y x h = false) ∧ State.reset.dirty = false ∧
  (∀ k : Nibble, State.reset.keyDown k = false) ∧ State.reset.kwActive = false ∧ State.reset.kwReg = 0 ∧
  State.reset.fault = none ∧ State.reset.halted = false ∧ State.reset.cfg.wrap = false ∧
  State.reset.soundActive = false

/-- R241 and R54: a ROM over 3584 bytes gives no machine; any other gives the reset state with the font at FONT_BASE and
the ROM at 512 (the spec's decisions D1 to D4; logs 12, 15). -/
def Obligations.ConstructionLoadsRom : Prop :=
  ∀ (rom : List Byte) (cfg : Config),
    (3584 < rom.length → State.construct rom cfg = none) ∧
    (rom.length ≤ 3584 → ∃ s, State.construct rom cfg = some s ∧ s.cfg = cfg ∧ MemoryCanonical s ∧
      (∀ k : Nat, k < rom.length → s.readByte (512 + k) = rom.getD k 0) ∧
      (∀ k : Nat, k < 80 → s.readByte (cfg.fontBase.val + k) = font.getD k 0) ∧
      (∀ a : Nat, ¬(512 ≤ a ∧ a < 512 + rom.length) → ¬(cfg.fontBase.val ≤ a ∧ a < cfg.fontBase.val + 80) →
        s.readByte a = 0) ∧
      FrameBut [.mem, .cfg] State.reset s)

/-- The reset state meets every invariant below: canonical memory, pc and stack in range, pc even. -/
def Obligations.ResetMeetsInvariants : Prop :=
  MemoryCanonical State.reset ∧ PcInRange State.reset ∧ PcEven State.reset

/-! ### Invariants and whole-machine rules -/

/-- Every step, of any agent, from any state, keeps memory in its canonical form. -/
def Obligations.StepKeepsMemoryCanonical : Prop :=
  ∀ s t : State, MemoryCanonical s → step s = .next t → MemoryCanonical t

/-- R28 (which the spec marks as derived): pc stays at or below 4350 and every stack entry at or below 4096. -/
def Obligations.StepKeepsPcInRange : Prop :=
  ∀ s t : State, PcInRange s → step s = .next t → PcInRange t

/-- Source property S1, R27 and R252 item 1: a program whose jump and call targets are even never makes pc odd. -/
def Obligations.ValidProgramsKeepPcEven : Prop :=
  ∀ s t : State, PcEven s →
    (∀ op i, s.fetch = some op → decodeWord op = .instr i → InContract i s) →
    step s = .next t → PcEven t

/-- R35 and R232: no step of any agent changes the configuration. -/
def Obligations.StepKeepsConfiguration : Prop :=
  ∀ s t : State, step s = .next t → t.cfg = s.cfg

/-- R21 and R36: no instruction writes a part of the state or a general register other than those listed for it. In
particular none writes the keypad, the configuration or the schedule, only Fx33 and Fx55 write memory, only 00E0 and Dxyn
the display. -/
def Obligations.InstructionsWriteOnlyTheirParts : Prop :=
  ∀ (i : Instr) (s t : State), exec i s = .next t →
    FrameBut (mayWrite i) s t ∧ ∀ r : Nibble, ¬mayWriteReg i r → t.readV r = s.readV r

/-! ### Encoding -/

/-- Every instruction's bytes decode to it, with every operand at every value, whatever follows. -/
def Obligations.DecodeOfEncodeIsIdentity : Prop :=
  ∀ (i : Instr) (rest : List Byte), decode (encodeBytes i ++ rest) = .ok (i, rest)

/-- A word that decodes to an instruction is that instruction's only encoding. That the low nibble of families 5 and 9 is not
ignored is the spec's decision D9 (log 23). -/
def Obligations.EncodeOfDecodeIsIdentity : Prop :=
  ∀ (op : Word) (i : Instr), decodeWord op = .instr i → encode i = op

/-- R81 to R85: the illegal words, by family (the spec's decision D9, log 23). -/
def Obligations.IllegalWordsAreTheListedOnes : Prop :=
  ∀ f x y n : Nibble, (∃ why, decodeWord (f ++ x ++ y ++ n) = .illegal why) ↔
    (f = 0x0#4 ∧ f ++ x ++ y ++ n ≠ 0x00E0#16 ∧ f ++ x ++ y ++ n ≠ 0x00EE#16) ∨
    (f = 0x5#4 ∧ n ≠ 0x0#4) ∨
    (f = 0x8#4 ∧ 8 ≤ n.toNat ∧ n ≠ 0xE#4) ∨
    (f = 0x9#4 ∧ n ≠ 0x0#4) ∨
    (f = 0xE#4 ∧ y ++ n ≠ 0x9E#8 ∧ y ++ n ≠ 0xA1#8) ∨
    (f = 0xF#4 ∧ y ++ n ≠ 0x07#8 ∧ y ++ n ≠ 0x0A#8 ∧ y ++ n ≠ 0x15#8 ∧ y ++ n ≠ 0x18#8 ∧ y ++ n ≠ 0x1E#8 ∧
      y ++ n ≠ 0x29#8 ∧ y ++ n ≠ 0x33#8 ∧ y ++ n ≠ 0x55#8 ∧ y ++ n ≠ 0x65#8)

/-- A few words written out from the spec's tables (R88, R86; 95_test_vectors.md 2.1). That 0000, 5121 and 8AB8 are
illegal is the spec's decision D9 (log 23). -/
def Obligations.SampleWordsDecode : Prop :=
  decodeWord 0x6A2B#16 = .instr (.ldByte 0xA 0x2B) ∧ decodeWord 0xD015#16 = .instr (.drw 0 1 5) ∧
  decodeWord 0x8AB7#16 = .instr (.subnReg 0xA 0xB) ∧ decodeWord 0x8ABE#16 = .instr (.shl 0xA 0xB) ∧
  decodeWord 0xB300#16 = .instr (.jpV0 0x300) ∧ decodeWord 0xF265#16 = .instr (.loadRegs 2) ∧
  decodeWord 0xE1A1#16 = .instr (.sknp 1) ∧ decodeWord 0x0000#16 = .illegal .family0 ∧
  decodeWord 0x5121#16 = .illegal .family5 ∧ decodeWord 0x8AB8#16 = .illegal .family8

/-! ### Executions without end -/

/-- R216: the Timer Thread is weakly fair, so in an infinite execution in which it ticks infinitely often, a timer that
no instruction writes from some point on reaches 0 and stays there: a program that polls DT until it is 0 eventually
sees 0 (the spec's decision D30, log 25). -/
def Obligations.FairExecutionsRunTimersOut : Prop :=
  ∀ (τ : Schedule) (σ : Nat → State) (n : Nat), Execution τ σ → WeaklyFair τ →
    ((∀ m : Nat, n ≤ m → τ m = .core → ∀ y : Nibble, ¬Executes (σ m) (.ldDtVx y)) →
      ∃ m : Nat, n ≤ m ∧ ∀ k : Nat, m ≤ k → (σ k).dt = 0) ∧
    ((∀ m : Nat, n ≤ m → τ m = .core → ∀ y : Nibble, ¬Executes (σ m) (.ldStVx y)) →
      ∃ m : Nat, n ≤ m ∧ ∀ k : Nat, m ≤ k → (σ k).st = 0)
end

