-- ==== Sys2Proof/Laws/Decode.lean ====
section
/-! SUPPORT. Laws/Decode.lean: the fields of a word built by each format (spec/30_encoding.md R71, R72), the word built
from its fields, and the two bytes of a word. Everything reduces to the word's number. -/

namespace Sys2Proof

/-- Concatenation as a number (R8: `a ∥ b` has a in the high bits). -/
theorem toNat_concat {v w : Nat} (a : BitVec v) (b : BitVec w) : (a ++ b).toNat = a.toNat * 2 ^ w + b.toNat := by
  rw [BitVec.toNat_append, Nat.mul_comm, Nat.two_pow_add_eq_or_of_lt b.isLt, Nat.mul_comm, Nat.shiftLeft_eq]

theorem toNat_joinBytes (hi lo : Byte) : (joinBytes hi lo).toNat = hi.toNat * 256 + lo.toNat := toNat_concat hi lo

theorem toNat_NNN (f : Nibble) (nnn : Addr) : (encodeNNN f nnn).toNat = f.toNat * 4096 + nnn.toNat := toNat_concat f nnn

theorem toNat_XKK (f x : Nibble) (kk : Byte) :
    (encodeXKK f x kk).toNat = f.toNat * 4096 + x.toNat * 256 + kk.toNat := by
  show (f ++ x ++ kk).toNat = _
  rw [toNat_concat, toNat_concat]; omega

theorem toNat_XYN (f x y n : Nibble) :
    (encodeXYN f x y n).toNat = f.toNat * 4096 + x.toNat * 256 + y.toNat * 16 + n.toNat := by
  show (f ++ x ++ y ++ n).toNat = _
  rw [toNat_concat, toNat_concat, toNat_concat]; omega

section fields
variable (op : Word)

theorem toNat_fieldF : (fieldF op).toNat = op.toNat / 4096 := by
  have := op.isLt
  simp only [fieldF, BitVec.extractLsb'_toNat, Nat.shiftRight_eq_div_pow]; omega

theorem toNat_fieldX : (fieldX op).toNat = op.toNat / 256 % 16 := by
  simp only [fieldX, BitVec.extractLsb'_toNat, Nat.shiftRight_eq_div_pow]

theorem toNat_fieldY : (fieldY op).toNat = op.toNat / 16 % 16 := by
  simp only [fieldY, BitVec.extractLsb'_toNat, Nat.shiftRight_eq_div_pow]

theorem toNat_fieldN : (fieldN op).toNat = op.toNat % 16 := by
  simp only [fieldN, BitVec.extractLsb'_toNat, Nat.shiftRight_zero]

theorem toNat_fieldKK : (fieldKK op).toNat = op.toNat % 256 := by
  simp only [fieldKK, BitVec.extractLsb'_toNat, Nat.shiftRight_zero]

theorem toNat_fieldNNN : (fieldNNN op).toNat = op.toNat % 4096 := by
  simp only [fieldNNN, BitVec.extractLsb'_toNat, Nat.shiftRight_zero]

theorem toNat_highByte : (highByte op).toNat = op.toNat / 256 := by
  have := op.isLt
  simp only [highByte, BitVec.extractLsb'_toNat, Nat.shiftRight_eq_div_pow]; omega

theorem toNat_lowByte : (lowByte op).toNat = op.toNat % 256 := by
  simp only [lowByte, BitVec.extractLsb'_toNat, Nat.shiftRight_zero]

/-- A word is the join of its two bytes (R55). -/
@[simp] theorem joinBytes_bytes : joinBytes (highByte op) (lowByte op) = op := by
  apply BitVec.eq_of_toNat_eq; rw [toNat_joinBytes, toNat_highByte, toNat_lowByte]; omega

/-- A word is rebuilt from its fields, in each layout. -/
theorem encodeNNN_fields : encodeNNN (fieldF op) (fieldNNN op) = op := by
  apply BitVec.eq_of_toNat_eq; rw [toNat_NNN, toNat_fieldF, toNat_fieldNNN]; omega

theorem encodeXKK_fields : encodeXKK (fieldF op) (fieldX op) (fieldKK op) = op := by
  apply BitVec.eq_of_toNat_eq; rw [toNat_XKK, toNat_fieldF, toNat_fieldX, toNat_fieldKK]; omega

theorem encodeXYN_fields : encodeXYN (fieldF op) (fieldX op) (fieldY op) (fieldN op) = op := by
  apply BitVec.eq_of_toNat_eq; rw [toNat_XYN, toNat_fieldF, toNat_fieldX, toNat_fieldY, toNat_fieldN]; omega

end fields

@[simp] theorem highByte_joinBytes (hi lo : Byte) : highByte (joinBytes hi lo) = hi := by
  apply BitVec.eq_of_toNat_eq; rw [toNat_highByte, toNat_joinBytes]; omega

@[simp] theorem lowByte_joinBytes (hi lo : Byte) : lowByte (joinBytes hi lo) = lo := by
  apply BitVec.eq_of_toNat_eq; rw [toNat_lowByte, toNat_joinBytes]; omega

section NNN
variable (f : Nibble) (nnn : Addr)

@[simp] theorem fieldF_NNN : fieldF (encodeNNN f nnn) = f := by
  apply BitVec.eq_of_toNat_eq; rw [toNat_fieldF, toNat_NNN]; omega

@[simp] theorem fieldNNN_NNN : fieldNNN (encodeNNN f nnn) = nnn := by
  apply BitVec.eq_of_toNat_eq; rw [toNat_fieldNNN, toNat_NNN]; omega

end NNN

section XKK
variable (f x : Nibble) (kk : Byte)

@[simp] theorem fieldF_XKK : fieldF (encodeXKK f x kk) = f := by
  apply BitVec.eq_of_toNat_eq; rw [toNat_fieldF, toNat_XKK]; omega

@[simp] theorem fieldX_XKK : fieldX (encodeXKK f x kk) = x := by
  apply BitVec.eq_of_toNat_eq; rw [toNat_fieldX, toNat_XKK]; omega

@[simp] theorem fieldKK_XKK : fieldKK (encodeXKK f x kk) = kk := by
  apply BitVec.eq_of_toNat_eq; rw [toNat_fieldKK, toNat_XKK]; omega

end XKK

section XYN
variable (f x y n : Nibble)

@[simp] theorem fieldF_XYN : fieldF (encodeXYN f x y n) = f := by
  apply BitVec.eq_of_toNat_eq; rw [toNat_fieldF, toNat_XYN]; omega

@[simp] theorem fieldX_XYN : fieldX (encodeXYN f x y n) = x := by
  apply BitVec.eq_of_toNat_eq; rw [toNat_fieldX, toNat_XYN]; omega

@[simp] theorem fieldY_XYN : fieldY (encodeXYN f x y n) = y := by
  apply BitVec.eq_of_toNat_eq; rw [toNat_fieldY, toNat_XYN]; omega

@[simp] theorem fieldN_XYN : fieldN (encodeXYN f x y n) = n := by
  apply BitVec.eq_of_toNat_eq; rw [toNat_fieldN, toNat_XYN]; omega

end XYN

end Sys2Proof
end

