-- ==== Sys2Proof/Laws/State.lean ====
section
/-! SUPPORT. Laws/State.lean: what each plain update of Machine/Ops.lean does to each field, and to what reads of
registers, memory and keys give. One lemma per update and field, by rfl. -/

namespace Sys2Proof.Machine

section
variable (s : State) (x : Nibble) (b : Byte)

@[simp] theorem setV_v : (s.setV x b).v = s.v.set x.toNat b x.isLt := rfl
@[simp] theorem setV_i : (s.setV x b).i = s.i := rfl
@[simp] theorem setV_pc : (s.setV x b).pc = s.pc := rfl
@[simp] theorem setV_sp : (s.setV x b).sp = s.sp := rfl
@[simp] theorem setV_stack : (s.setV x b).stack = s.stack := rfl
@[simp] theorem setV_dt : (s.setV x b).dt = s.dt := rfl
@[simp] theorem setV_st : (s.setV x b).st = s.st := rfl
@[simp] theorem setV_mem : (s.setV x b).mem = s.mem := rfl
@[simp] theorem setV_disp : (s.setV x b).disp = s.disp := rfl
@[simp] theorem setV_dirty : (s.setV x b).dirty = s.dirty := rfl
@[simp] theorem setV_key : (s.setV x b).key = s.key := rfl
@[simp] theorem setV_kwActive : (s.setV x b).kwActive = s.kwActive := rfl
@[simp] theorem setV_kwReg : (s.setV x b).kwReg = s.kwReg := rfl
@[simp] theorem setV_fault : (s.setV x b).fault = s.fault := rfl
@[simp] theorem setV_displayChanged : (s.setV x b).displayChanged = s.displayChanged := rfl
@[simp] theorem setV_cfg : (s.setV x b).cfg = s.cfg := rfl
@[simp] theorem setV_stopped : (s.setV x b).stopped = s.stopped := rfl
@[simp] theorem setV_turns : (s.setV x b).turns = s.turns := rfl
@[simp] theorem setV_draws : (s.setV x b).draws = s.draws := rfl
@[simp] theorem readByte_setV (j : Nat) : (s.setV x b).readByte j = s.readByte j := rfl
@[simp] theorem keyDown_setV (j : Nibble) : (s.setV x b).keyDown j = s.keyDown j := rfl

end

section
variable (s : State) (v : Vector Byte 16)

@[simp] theorem setRegs_v : (s.setRegs v).v = v := rfl
@[simp] theorem setRegs_i : (s.setRegs v).i = s.i := rfl
@[simp] theorem setRegs_pc : (s.setRegs v).pc = s.pc := rfl
@[simp] theorem setRegs_sp : (s.setRegs v).sp = s.sp := rfl
@[simp] theorem setRegs_stack : (s.setRegs v).stack = s.stack := rfl
@[simp] theorem setRegs_dt : (s.setRegs v).dt = s.dt := rfl
@[simp] theorem setRegs_st : (s.setRegs v).st = s.st := rfl
@[simp] theorem setRegs_mem : (s.setRegs v).mem = s.mem := rfl
@[simp] theorem setRegs_disp : (s.setRegs v).disp = s.disp := rfl
@[simp] theorem setRegs_dirty : (s.setRegs v).dirty = s.dirty := rfl
@[simp] theorem setRegs_key : (s.setRegs v).key = s.key := rfl
@[simp] theorem setRegs_kwActive : (s.setRegs v).kwActive = s.kwActive := rfl
@[simp] theorem setRegs_kwReg : (s.setRegs v).kwReg = s.kwReg := rfl
@[simp] theorem setRegs_fault : (s.setRegs v).fault = s.fault := rfl
@[simp] theorem setRegs_displayChanged : (s.setRegs v).displayChanged = s.displayChanged := rfl
@[simp] theorem setRegs_cfg : (s.setRegs v).cfg = s.cfg := rfl
@[simp] theorem setRegs_stopped : (s.setRegs v).stopped = s.stopped := rfl
@[simp] theorem setRegs_turns : (s.setRegs v).turns = s.turns := rfl
@[simp] theorem setRegs_draws : (s.setRegs v).draws = s.draws := rfl
@[simp] theorem readByte_setRegs (j : Nat) : (s.setRegs v).readByte j = s.readByte j := rfl
@[simp] theorem keyDown_setRegs (j : Nibble) : (s.setRegs v).keyDown j = s.keyDown j := rfl

end

section
variable (s : State) (w : Word)

@[simp] theorem setI_v : (s.setI w).v = s.v := rfl
@[simp] theorem setI_i : (s.setI w).i = w := rfl
@[simp] theorem setI_pc : (s.setI w).pc = s.pc := rfl
@[simp] theorem setI_sp : (s.setI w).sp = s.sp := rfl
@[simp] theorem setI_stack : (s.setI w).stack = s.stack := rfl
@[simp] theorem setI_dt : (s.setI w).dt = s.dt := rfl
@[simp] theorem setI_st : (s.setI w).st = s.st := rfl
@[simp] theorem setI_mem : (s.setI w).mem = s.mem := rfl
@[simp] theorem setI_disp : (s.setI w).disp = s.disp := rfl
@[simp] theorem setI_dirty : (s.setI w).dirty = s.dirty := rfl
@[simp] theorem setI_key : (s.setI w).key = s.key := rfl
@[simp] theorem setI_kwActive : (s.setI w).kwActive = s.kwActive := rfl
@[simp] theorem setI_kwReg : (s.setI w).kwReg = s.kwReg := rfl
@[simp] theorem setI_fault : (s.setI w).fault = s.fault := rfl
@[simp] theorem setI_displayChanged : (s.setI w).displayChanged = s.displayChanged := rfl
@[simp] theorem setI_cfg : (s.setI w).cfg = s.cfg := rfl
@[simp] theorem setI_stopped : (s.setI w).stopped = s.stopped := rfl
@[simp] theorem setI_turns : (s.setI w).turns = s.turns := rfl
@[simp] theorem setI_draws : (s.setI w).draws = s.draws := rfl
@[simp] theorem readV_setI (r : Nibble) : (s.setI w).readV r = s.readV r := rfl
@[simp] theorem readByte_setI (j : Nat) : (s.setI w).readByte j = s.readByte j := rfl
@[simp] theorem keyDown_setI (j : Nibble) : (s.setI w).keyDown j = s.keyDown j := rfl

end

section
variable (s : State) (w : Word)

@[simp] theorem setPc_v : (s.setPc w).v = s.v := rfl
@[simp] theorem setPc_i : (s.setPc w).i = s.i := rfl
@[simp] theorem setPc_pc : (s.setPc w).pc = w := rfl
@[simp] theorem setPc_sp : (s.setPc w).sp = s.sp := rfl
@[simp] theorem setPc_stack : (s.setPc w).stack = s.stack := rfl
@[simp] theorem setPc_dt : (s.setPc w).dt = s.dt := rfl
@[simp] theorem setPc_st : (s.setPc w).st = s.st := rfl
@[simp] theorem setPc_mem : (s.setPc w).mem = s.mem := rfl
@[simp] theorem setPc_disp : (s.setPc w).disp = s.disp := rfl
@[simp] theorem setPc_dirty : (s.setPc w).dirty = s.dirty := rfl
@[simp] theorem setPc_key : (s.setPc w).key = s.key := rfl
@[simp] theorem setPc_kwActive : (s.setPc w).kwActive = s.kwActive := rfl
@[simp] theorem setPc_kwReg : (s.setPc w).kwReg = s.kwReg := rfl
@[simp] theorem setPc_fault : (s.setPc w).fault = s.fault := rfl
@[simp] theorem setPc_displayChanged : (s.setPc w).displayChanged = s.displayChanged := rfl
@[simp] theorem setPc_cfg : (s.setPc w).cfg = s.cfg := rfl
@[simp] theorem setPc_stopped : (s.setPc w).stopped = s.stopped := rfl
@[simp] theorem setPc_turns : (s.setPc w).turns = s.turns := rfl
@[simp] theorem setPc_draws : (s.setPc w).draws = s.draws := rfl
@[simp] theorem readV_setPc (r : Nibble) : (s.setPc w).readV r = s.readV r := rfl
@[simp] theorem readByte_setPc (j : Nat) : (s.setPc w).readByte j = s.readByte j := rfl
@[simp] theorem keyDown_setPc (j : Nibble) : (s.setPc w).keyDown j = s.keyDown j := rfl

end

section
variable (s : State) (p : Fin 17) (k : Vector Word 16)

@[simp] theorem setStack_v : (s.setStack p k).v = s.v := rfl
@[simp] theorem setStack_i : (s.setStack p k).i = s.i := rfl
@[simp] theorem setStack_pc : (s.setStack p k).pc = s.pc := rfl
@[simp] theorem setStack_sp : (s.setStack p k).sp = p := rfl
@[simp] theorem setStack_stack : (s.setStack p k).stack = k := rfl
@[simp] theorem setStack_dt : (s.setStack p k).dt = s.dt := rfl
@[simp] theorem setStack_st : (s.setStack p k).st = s.st := rfl
@[simp] theorem setStack_mem : (s.setStack p k).mem = s.mem := rfl
@[simp] theorem setStack_disp : (s.setStack p k).disp = s.disp := rfl
@[simp] theorem setStack_dirty : (s.setStack p k).dirty = s.dirty := rfl
@[simp] theorem setStack_key : (s.setStack p k).key = s.key := rfl
@[simp] theorem setStack_kwActive : (s.setStack p k).kwActive = s.kwActive := rfl
@[simp] theorem setStack_kwReg : (s.setStack p k).kwReg = s.kwReg := rfl
@[simp] theorem setStack_fault : (s.setStack p k).fault = s.fault := rfl
@[simp] theorem setStack_displayChanged : (s.setStack p k).displayChanged = s.displayChanged := rfl
@[simp] theorem setStack_cfg : (s.setStack p k).cfg = s.cfg := rfl
@[simp] theorem setStack_stopped : (s.setStack p k).stopped = s.stopped := rfl
@[simp] theorem setStack_turns : (s.setStack p k).turns = s.turns := rfl
@[simp] theorem setStack_draws : (s.setStack p k).draws = s.draws := rfl
@[simp] theorem readV_setStack (r : Nibble) : (s.setStack p k).readV r = s.readV r := rfl
@[simp] theorem readByte_setStack (j : Nat) : (s.setStack p k).readByte j = s.readByte j := rfl
@[simp] theorem keyDown_setStack (j : Nibble) : (s.setStack p k).keyDown j = s.keyDown j := rfl

end

section
variable (s : State) (b : Byte)

@[simp] theorem setDT_v : (s.setDT b).v = s.v := rfl
@[simp] theorem setDT_i : (s.setDT b).i = s.i := rfl
@[simp] theorem setDT_pc : (s.setDT b).pc = s.pc := rfl
@[simp] theorem setDT_sp : (s.setDT b).sp = s.sp := rfl
@[simp] theorem setDT_stack : (s.setDT b).stack = s.stack := rfl
@[simp] theorem setDT_dt : (s.setDT b).dt = b := rfl
@[simp] theorem setDT_st : (s.setDT b).st = s.st := rfl
@[simp] theorem setDT_mem : (s.setDT b).mem = s.mem := rfl
@[simp] theorem setDT_disp : (s.setDT b).disp = s.disp := rfl
@[simp] theorem setDT_dirty : (s.setDT b).dirty = s.dirty := rfl
@[simp] theorem setDT_key : (s.setDT b).key = s.key := rfl
@[simp] theorem setDT_kwActive : (s.setDT b).kwActive = s.kwActive := rfl
@[simp] theorem setDT_kwReg : (s.setDT b).kwReg = s.kwReg := rfl
@[simp] theorem setDT_fault : (s.setDT b).fault = s.fault := rfl
@[simp] theorem setDT_displayChanged : (s.setDT b).displayChanged = s.displayChanged := rfl
@[simp] theorem setDT_cfg : (s.setDT b).cfg = s.cfg := rfl
@[simp] theorem setDT_stopped : (s.setDT b).stopped = s.stopped := rfl
@[simp] theorem setDT_turns : (s.setDT b).turns = s.turns := rfl
@[simp] theorem setDT_draws : (s.setDT b).draws = s.draws := rfl
@[simp] theorem readV_setDT (r : Nibble) : (s.setDT b).readV r = s.readV r := rfl
@[simp] theorem readByte_setDT (j : Nat) : (s.setDT b).readByte j = s.readByte j := rfl
@[simp] theorem keyDown_setDT (j : Nibble) : (s.setDT b).keyDown j = s.keyDown j := rfl

end

section
variable (s : State) (b : Byte)

@[simp] theorem setST_v : (s.setST b).v = s.v := rfl
@[simp] theorem setST_i : (s.setST b).i = s.i := rfl
@[simp] theorem setST_pc : (s.setST b).pc = s.pc := rfl
@[simp] theorem setST_sp : (s.setST b).sp = s.sp := rfl
@[simp] theorem setST_stack : (s.setST b).stack = s.stack := rfl
@[simp] theorem setST_dt : (s.setST b).dt = s.dt := rfl
@[simp] theorem setST_st : (s.setST b).st = b := rfl
@[simp] theorem setST_mem : (s.setST b).mem = s.mem := rfl
@[simp] theorem setST_disp : (s.setST b).disp = s.disp := rfl
@[simp] theorem setST_dirty : (s.setST b).dirty = s.dirty := rfl
@[simp] theorem setST_key : (s.setST b).key = s.key := rfl
@[simp] theorem setST_kwActive : (s.setST b).kwActive = s.kwActive := rfl
@[simp] theorem setST_kwReg : (s.setST b).kwReg = s.kwReg := rfl
@[simp] theorem setST_fault : (s.setST b).fault = s.fault := rfl
@[simp] theorem setST_displayChanged : (s.setST b).displayChanged = s.displayChanged := rfl
@[simp] theorem setST_cfg : (s.setST b).cfg = s.cfg := rfl
@[simp] theorem setST_stopped : (s.setST b).stopped = s.stopped := rfl
@[simp] theorem setST_turns : (s.setST b).turns = s.turns := rfl
@[simp] theorem setST_draws : (s.setST b).draws = s.draws := rfl
@[simp] theorem readV_setST (r : Nibble) : (s.setST b).readV r = s.readV r := rfl
@[simp] theorem readByte_setST (j : Nat) : (s.setST b).readByte j = s.readByte j := rfl
@[simp] theorem keyDown_setST (j : Nibble) : (s.setST b).keyDown j = s.keyDown j := rfl

end

section
variable (s : State) (m : Memory)

@[simp] theorem setMem_v : (s.setMem m).v = s.v := rfl
@[simp] theorem setMem_i : (s.setMem m).i = s.i := rfl
@[simp] theorem setMem_pc : (s.setMem m).pc = s.pc := rfl
@[simp] theorem setMem_sp : (s.setMem m).sp = s.sp := rfl
@[simp] theorem setMem_stack : (s.setMem m).stack = s.stack := rfl
@[simp] theorem setMem_dt : (s.setMem m).dt = s.dt := rfl
@[simp] theorem setMem_st : (s.setMem m).st = s.st := rfl
@[simp] theorem setMem_mem : (s.setMem m).mem = m := rfl
@[simp] theorem setMem_disp : (s.setMem m).disp = s.disp := rfl
@[simp] theorem setMem_dirty : (s.setMem m).dirty = s.dirty := rfl
@[simp] theorem setMem_key : (s.setMem m).key = s.key := rfl
@[simp] theorem setMem_kwActive : (s.setMem m).kwActive = s.kwActive := rfl
@[simp] theorem setMem_kwReg : (s.setMem m).kwReg = s.kwReg := rfl
@[simp] theorem setMem_fault : (s.setMem m).fault = s.fault := rfl
@[simp] theorem setMem_displayChanged : (s.setMem m).displayChanged = s.displayChanged := rfl
@[simp] theorem setMem_cfg : (s.setMem m).cfg = s.cfg := rfl
@[simp] theorem setMem_stopped : (s.setMem m).stopped = s.stopped := rfl
@[simp] theorem setMem_turns : (s.setMem m).turns = s.turns := rfl
@[simp] theorem setMem_draws : (s.setMem m).draws = s.draws := rfl
@[simp] theorem readV_setMem (r : Nibble) : (s.setMem m).readV r = s.readV r := rfl
@[simp] theorem keyDown_setMem (j : Nibble) : (s.setMem m).keyDown j = s.keyDown j := rfl

end

section
variable (s : State) (d : Display) (c : Bool)

@[simp] theorem setDisp_v : (s.setDisp d c).v = s.v := rfl
@[simp] theorem setDisp_i : (s.setDisp d c).i = s.i := rfl
@[simp] theorem setDisp_pc : (s.setDisp d c).pc = s.pc := rfl
@[simp] theorem setDisp_sp : (s.setDisp d c).sp = s.sp := rfl
@[simp] theorem setDisp_stack : (s.setDisp d c).stack = s.stack := rfl
@[simp] theorem setDisp_dt : (s.setDisp d c).dt = s.dt := rfl
@[simp] theorem setDisp_st : (s.setDisp d c).st = s.st := rfl
@[simp] theorem setDisp_mem : (s.setDisp d c).mem = s.mem := rfl
@[simp] theorem setDisp_disp : (s.setDisp d c).disp = d := rfl
@[simp] theorem setDisp_dirty : (s.setDisp d c).dirty = (s.dirty || c) := rfl
@[simp] theorem setDisp_key : (s.setDisp d c).key = s.key := rfl
@[simp] theorem setDisp_kwActive : (s.setDisp d c).kwActive = s.kwActive := rfl
@[simp] theorem setDisp_kwReg : (s.setDisp d c).kwReg = s.kwReg := rfl
@[simp] theorem setDisp_fault : (s.setDisp d c).fault = s.fault := rfl
@[simp] theorem setDisp_displayChanged : (s.setDisp d c).displayChanged = c := rfl
@[simp] theorem setDisp_cfg : (s.setDisp d c).cfg = s.cfg := rfl
@[simp] theorem setDisp_stopped : (s.setDisp d c).stopped = s.stopped := rfl
@[simp] theorem setDisp_turns : (s.setDisp d c).turns = s.turns := rfl
@[simp] theorem setDisp_draws : (s.setDisp d c).draws = s.draws := rfl
@[simp] theorem readV_setDisp (r : Nibble) : (s.setDisp d c).readV r = s.readV r := rfl
@[simp] theorem readByte_setDisp (j : Nat) : (s.setDisp d c).readByte j = s.readByte j := rfl
@[simp] theorem keyDown_setDisp (j : Nibble) : (s.setDisp d c).keyDown j = s.keyDown j := rfl

end

section
variable (s : State) (a : Bool) (g : Nibble)

@[simp] theorem setLatch_v : (s.setLatch a g).v = s.v := rfl
@[simp] theorem setLatch_i : (s.setLatch a g).i = s.i := rfl
@[simp] theorem setLatch_pc : (s.setLatch a g).pc = s.pc := rfl
@[simp] theorem setLatch_sp : (s.setLatch a g).sp = s.sp := rfl
@[simp] theorem setLatch_stack : (s.setLatch a g).stack = s.stack := rfl
@[simp] theorem setLatch_dt : (s.setLatch a g).dt = s.dt := rfl
@[simp] theorem setLatch_st : (s.setLatch a g).st = s.st := rfl
@[simp] theorem setLatch_mem : (s.setLatch a g).mem = s.mem := rfl
@[simp] theorem setLatch_disp : (s.setLatch a g).disp = s.disp := rfl
@[simp] theorem setLatch_dirty : (s.setLatch a g).dirty = s.dirty := rfl
@[simp] theorem setLatch_key : (s.setLatch a g).key = s.key := rfl
@[simp] theorem setLatch_kwActive : (s.setLatch a g).kwActive = a := rfl
@[simp] theorem setLatch_kwReg : (s.setLatch a g).kwReg = g := rfl
@[simp] theorem setLatch_fault : (s.setLatch a g).fault = s.fault := rfl
@[simp] theorem setLatch_displayChanged : (s.setLatch a g).displayChanged = s.displayChanged := rfl
@[simp] theorem setLatch_cfg : (s.setLatch a g).cfg = s.cfg := rfl
@[simp] theorem setLatch_stopped : (s.setLatch a g).stopped = s.stopped := rfl
@[simp] theorem setLatch_turns : (s.setLatch a g).turns = s.turns := rfl
@[simp] theorem setLatch_draws : (s.setLatch a g).draws = s.draws := rfl
@[simp] theorem readV_setLatch (r : Nibble) : (s.setLatch a g).readV r = s.readV r := rfl
@[simp] theorem readByte_setLatch (j : Nat) : (s.setLatch a g).readByte j = s.readByte j := rfl
@[simp] theorem keyDown_setLatch (j : Nibble) : (s.setLatch a g).keyDown j = s.keyDown j := rfl

end

section
variable (s : State) (k : Nibble) (p : Bool)

@[simp] theorem setKey_v : (s.setKey k p).v = s.v := rfl
@[simp] theorem setKey_i : (s.setKey k p).i = s.i := rfl
@[simp] theorem setKey_pc : (s.setKey k p).pc = s.pc := rfl
@[simp] theorem setKey_sp : (s.setKey k p).sp = s.sp := rfl
@[simp] theorem setKey_stack : (s.setKey k p).stack = s.stack := rfl
@[simp] theorem setKey_dt : (s.setKey k p).dt = s.dt := rfl
@[simp] theorem setKey_st : (s.setKey k p).st = s.st := rfl
@[simp] theorem setKey_mem : (s.setKey k p).mem = s.mem := rfl
@[simp] theorem setKey_disp : (s.setKey k p).disp = s.disp := rfl
@[simp] theorem setKey_dirty : (s.setKey k p).dirty = s.dirty := rfl
@[simp] theorem setKey_key : (s.setKey k p).key = s.key.set k.toNat p k.isLt := rfl
@[simp] theorem setKey_kwActive : (s.setKey k p).kwActive = s.kwActive := rfl
@[simp] theorem setKey_kwReg : (s.setKey k p).kwReg = s.kwReg := rfl
@[simp] theorem setKey_fault : (s.setKey k p).fault = s.fault := rfl
@[simp] theorem setKey_displayChanged : (s.setKey k p).displayChanged = s.displayChanged := rfl
@[simp] theorem setKey_cfg : (s.setKey k p).cfg = s.cfg := rfl
@[simp] theorem setKey_stopped : (s.setKey k p).stopped = s.stopped := rfl
@[simp] theorem setKey_turns : (s.setKey k p).turns = s.turns := rfl
@[simp] theorem setKey_draws : (s.setKey k p).draws = s.draws := rfl
@[simp] theorem readV_setKey (r : Nibble) : (s.setKey k p).readV r = s.readV r := rfl
@[simp] theorem readByte_setKey (j : Nat) : (s.setKey k p).readByte j = s.readByte j := rfl

end

section
variable (s : State) (d : Bool)

@[simp] theorem setDirty_v : (s.setDirty d).v = s.v := rfl
@[simp] theorem setDirty_i : (s.setDirty d).i = s.i := rfl
@[simp] theorem setDirty_pc : (s.setDirty d).pc = s.pc := rfl
@[simp] theorem setDirty_sp : (s.setDirty d).sp = s.sp := rfl
@[simp] theorem setDirty_stack : (s.setDirty d).stack = s.stack := rfl
@[simp] theorem setDirty_dt : (s.setDirty d).dt = s.dt := rfl
@[simp] theorem setDirty_st : (s.setDirty d).st = s.st := rfl
@[simp] theorem setDirty_mem : (s.setDirty d).mem = s.mem := rfl
@[simp] theorem setDirty_disp : (s.setDirty d).disp = s.disp := rfl
@[simp] theorem setDirty_dirty : (s.setDirty d).dirty = d := rfl
@[simp] theorem setDirty_key : (s.setDirty d).key = s.key := rfl
@[simp] theorem setDirty_kwActive : (s.setDirty d).kwActive = s.kwActive := rfl
@[simp] theorem setDirty_kwReg : (s.setDirty d).kwReg = s.kwReg := rfl
@[simp] theorem setDirty_fault : (s.setDirty d).fault = s.fault := rfl
@[simp] theorem setDirty_displayChanged : (s.setDirty d).displayChanged = s.displayChanged := rfl
@[simp] theorem setDirty_cfg : (s.setDirty d).cfg = s.cfg := rfl
@[simp] theorem setDirty_stopped : (s.setDirty d).stopped = s.stopped := rfl
@[simp] theorem setDirty_turns : (s.setDirty d).turns = s.turns := rfl
@[simp] theorem setDirty_draws : (s.setDirty d).draws = s.draws := rfl
@[simp] theorem readV_setDirty (r : Nibble) : (s.setDirty d).readV r = s.readV r := rfl
@[simp] theorem readByte_setDirty (j : Nat) : (s.setDirty d).readByte j = s.readByte j := rfl
@[simp] theorem keyDown_setDirty (j : Nibble) : (s.setDirty d).keyDown j = s.keyDown j := rfl

end

section
variable (s : State) (c : Bool)

@[simp] theorem setChanged_v : (s.setChanged c).v = s.v := rfl
@[simp] theorem setChanged_i : (s.setChanged c).i = s.i := rfl
@[simp] theorem setChanged_pc : (s.setChanged c).pc = s.pc := rfl
@[simp] theorem setChanged_sp : (s.setChanged c).sp = s.sp := rfl
@[simp] theorem setChanged_stack : (s.setChanged c).stack = s.stack := rfl
@[simp] theorem setChanged_dt : (s.setChanged c).dt = s.dt := rfl
@[simp] theorem setChanged_st : (s.setChanged c).st = s.st := rfl
@[simp] theorem setChanged_mem : (s.setChanged c).mem = s.mem := rfl
@[simp] theorem setChanged_disp : (s.setChanged c).disp = s.disp := rfl
@[simp] theorem setChanged_dirty : (s.setChanged c).dirty = s.dirty := rfl
@[simp] theorem setChanged_key : (s.setChanged c).key = s.key := rfl
@[simp] theorem setChanged_kwActive : (s.setChanged c).kwActive = s.kwActive := rfl
@[simp] theorem setChanged_kwReg : (s.setChanged c).kwReg = s.kwReg := rfl
@[simp] theorem setChanged_fault : (s.setChanged c).fault = s.fault := rfl
@[simp] theorem setChanged_displayChanged : (s.setChanged c).displayChanged = c := rfl
@[simp] theorem setChanged_cfg : (s.setChanged c).cfg = s.cfg := rfl
@[simp] theorem setChanged_stopped : (s.setChanged c).stopped = s.stopped := rfl
@[simp] theorem setChanged_turns : (s.setChanged c).turns = s.turns := rfl
@[simp] theorem setChanged_draws : (s.setChanged c).draws = s.draws := rfl
@[simp] theorem readV_setChanged (r : Nibble) : (s.setChanged c).readV r = s.readV r := rfl
@[simp] theorem readByte_setChanged (j : Nat) : (s.setChanged c).readByte j = s.readByte j := rfl
@[simp] theorem keyDown_setChanged (j : Nibble) : (s.setChanged c).keyDown j = s.keyDown j := rfl

end

section
variable (s : State) (b : Bool)

@[simp] theorem setStopped_v : (s.setStopped b).v = s.v := rfl
@[simp] theorem setStopped_i : (s.setStopped b).i = s.i := rfl
@[simp] theorem setStopped_pc : (s.setStopped b).pc = s.pc := rfl
@[simp] theorem setStopped_sp : (s.setStopped b).sp = s.sp := rfl
@[simp] theorem setStopped_stack : (s.setStopped b).stack = s.stack := rfl
@[simp] theorem setStopped_dt : (s.setStopped b).dt = s.dt := rfl
@[simp] theorem setStopped_st : (s.setStopped b).st = s.st := rfl
@[simp] theorem setStopped_mem : (s.setStopped b).mem = s.mem := rfl
@[simp] theorem setStopped_disp : (s.setStopped b).disp = s.disp := rfl
@[simp] theorem setStopped_dirty : (s.setStopped b).dirty = s.dirty := rfl
@[simp] theorem setStopped_key : (s.setStopped b).key = s.key := rfl
@[simp] theorem setStopped_kwActive : (s.setStopped b).kwActive = s.kwActive := rfl
@[simp] theorem setStopped_kwReg : (s.setStopped b).kwReg = s.kwReg := rfl
@[simp] theorem setStopped_fault : (s.setStopped b).fault = s.fault := rfl
@[simp] theorem setStopped_displayChanged : (s.setStopped b).displayChanged = s.displayChanged := rfl
@[simp] theorem setStopped_cfg : (s.setStopped b).cfg = s.cfg := rfl
@[simp] theorem setStopped_stopped : (s.setStopped b).stopped = b := rfl
@[simp] theorem setStopped_turns : (s.setStopped b).turns = s.turns := rfl
@[simp] theorem setStopped_draws : (s.setStopped b).draws = s.draws := rfl
@[simp] theorem readV_setStopped (r : Nibble) : (s.setStopped b).readV r = s.readV r := rfl
@[simp] theorem readByte_setStopped (j : Nat) : (s.setStopped b).readByte j = s.readByte j := rfl
@[simp] theorem keyDown_setStopped (j : Nibble) : (s.setStopped b).keyDown j = s.keyDown j := rfl

end

section
variable (s : State) (ts : List Turn)

@[simp] theorem setTurns_v : (s.setTurns ts).v = s.v := rfl
@[simp] theorem setTurns_i : (s.setTurns ts).i = s.i := rfl
@[simp] theorem setTurns_pc : (s.setTurns ts).pc = s.pc := rfl
@[simp] theorem setTurns_sp : (s.setTurns ts).sp = s.sp := rfl
@[simp] theorem setTurns_stack : (s.setTurns ts).stack = s.stack := rfl
@[simp] theorem setTurns_dt : (s.setTurns ts).dt = s.dt := rfl
@[simp] theorem setTurns_st : (s.setTurns ts).st = s.st := rfl
@[simp] theorem setTurns_mem : (s.setTurns ts).mem = s.mem := rfl
@[simp] theorem setTurns_disp : (s.setTurns ts).disp = s.disp := rfl
@[simp] theorem setTurns_dirty : (s.setTurns ts).dirty = s.dirty := rfl
@[simp] theorem setTurns_key : (s.setTurns ts).key = s.key := rfl
@[simp] theorem setTurns_kwActive : (s.setTurns ts).kwActive = s.kwActive := rfl
@[simp] theorem setTurns_kwReg : (s.setTurns ts).kwReg = s.kwReg := rfl
@[simp] theorem setTurns_fault : (s.setTurns ts).fault = s.fault := rfl
@[simp] theorem setTurns_displayChanged : (s.setTurns ts).displayChanged = s.displayChanged := rfl
@[simp] theorem setTurns_cfg : (s.setTurns ts).cfg = s.cfg := rfl
@[simp] theorem setTurns_stopped : (s.setTurns ts).stopped = s.stopped := rfl
@[simp] theorem setTurns_turns : (s.setTurns ts).turns = ts := rfl
@[simp] theorem setTurns_draws : (s.setTurns ts).draws = s.draws := rfl
@[simp] theorem readV_setTurns (r : Nibble) : (s.setTurns ts).readV r = s.readV r := rfl
@[simp] theorem readByte_setTurns (j : Nat) : (s.setTurns ts).readByte j = s.readByte j := rfl
@[simp] theorem keyDown_setTurns (j : Nibble) : (s.setTurns ts).keyDown j = s.keyDown j := rfl

end

section
variable (s : State)

@[simp] theorem tookDraw_v : (s.tookDraw).v = s.v := rfl
@[simp] theorem tookDraw_i : (s.tookDraw).i = s.i := rfl
@[simp] theorem tookDraw_pc : (s.tookDraw).pc = s.pc := rfl
@[simp] theorem tookDraw_sp : (s.tookDraw).sp = s.sp := rfl
@[simp] theorem tookDraw_stack : (s.tookDraw).stack = s.stack := rfl
@[simp] theorem tookDraw_dt : (s.tookDraw).dt = s.dt := rfl
@[simp] theorem tookDraw_st : (s.tookDraw).st = s.st := rfl
@[simp] theorem tookDraw_mem : (s.tookDraw).mem = s.mem := rfl
@[simp] theorem tookDraw_disp : (s.tookDraw).disp = s.disp := rfl
@[simp] theorem tookDraw_dirty : (s.tookDraw).dirty = s.dirty := rfl
@[simp] theorem tookDraw_key : (s.tookDraw).key = s.key := rfl
@[simp] theorem tookDraw_kwActive : (s.tookDraw).kwActive = s.kwActive := rfl
@[simp] theorem tookDraw_kwReg : (s.tookDraw).kwReg = s.kwReg := rfl
@[simp] theorem tookDraw_fault : (s.tookDraw).fault = s.fault := rfl
@[simp] theorem tookDraw_displayChanged : (s.tookDraw).displayChanged = s.displayChanged := rfl
@[simp] theorem tookDraw_cfg : (s.tookDraw).cfg = s.cfg := rfl
@[simp] theorem tookDraw_stopped : (s.tookDraw).stopped = s.stopped := rfl
@[simp] theorem tookDraw_turns : (s.tookDraw).turns = s.turns := rfl
@[simp] theorem tookDraw_draws : (s.tookDraw).draws = s.draws + 1 := rfl
@[simp] theorem readV_tookDraw (r : Nibble) : (s.tookDraw).readV r = s.readV r := rfl
@[simp] theorem readByte_tookDraw (j : Nat) : (s.tookDraw).readByte j = s.readByte j := rfl
@[simp] theorem keyDown_tookDraw (j : Nibble) : (s.tookDraw).keyDown j = s.keyDown j := rfl

end

section
variable (s : State) (f : Option FaultRecord)

@[simp] theorem setFault_v : (s.setFault f).v = s.v := rfl
@[simp] theorem setFault_i : (s.setFault f).i = s.i := rfl
@[simp] theorem setFault_pc : (s.setFault f).pc = s.pc := rfl
@[simp] theorem setFault_sp : (s.setFault f).sp = s.sp := rfl
@[simp] theorem setFault_stack : (s.setFault f).stack = s.stack := rfl
@[simp] theorem setFault_dt : (s.setFault f).dt = s.dt := rfl
@[simp] theorem setFault_st : (s.setFault f).st = s.st := rfl
@[simp] theorem setFault_mem : (s.setFault f).mem = s.mem := rfl
@[simp] theorem setFault_disp : (s.setFault f).disp = s.disp := rfl
@[simp] theorem setFault_dirty : (s.setFault f).dirty = s.dirty := rfl
@[simp] theorem setFault_key : (s.setFault f).key = s.key := rfl
@[simp] theorem setFault_kwActive : (s.setFault f).kwActive = s.kwActive := rfl
@[simp] theorem setFault_kwReg : (s.setFault f).kwReg = s.kwReg := rfl
@[simp] theorem setFault_fault : (s.setFault f).fault = f := rfl
@[simp] theorem setFault_displayChanged : (s.setFault f).displayChanged = s.displayChanged := rfl
@[simp] theorem setFault_cfg : (s.setFault f).cfg = s.cfg := rfl
@[simp] theorem setFault_stopped : (s.setFault f).stopped = s.stopped := rfl
@[simp] theorem setFault_turns : (s.setFault f).turns = s.turns := rfl
@[simp] theorem setFault_draws : (s.setFault f).draws = s.draws := rfl
@[simp] theorem readV_setFault (r : Nibble) : (s.setFault f).readV r = s.readV r := rfl
@[simp] theorem readByte_setFault (j : Nat) : (s.setFault f).readByte j = s.readByte j := rfl
@[simp] theorem keyDown_setFault (j : Nibble) : (s.setFault f).keyDown j = s.keyDown j := rfl

end

/-- V[x] reads back what was written, every other register is as before (R20: no register is hardwired). -/
@[simp] theorem readV_setV (s : State) (x r : Nibble) (b : Byte) :
    (s.setV x b).readV r = if r = x then b else s.readV r := by
  simp only [State.readV, setV_v, Vector.getElem_set, BitVec.toNat_inj, eq_comm (a := x)]

/-- The same for key flags (R228). -/
@[simp] theorem keyDown_setKey (s : State) (k j : Nibble) (p : Bool) :
    (s.setKey k p).keyDown j = if j = k then p else s.keyDown j := by
  simp only [State.keyDown, setKey_key, Vector.getElem_set, BitVec.toNat_inj, eq_comm (a := k)]

@[simp] theorem readV_setRegs (s : State) (v : Vector Byte 16) (r : Nibble) :
    (s.setRegs v).readV r = v[r.toNat]'r.isLt := rfl

@[simp] theorem readByte_setMem (s : State) (m : Memory) (a : Nat) :
    (s.setMem m).readByte a = Memory.read s.cfg.fontBase m a := rfl

end Sys2Proof.Machine
end

