-- ==== Sys2Proof/Laws/Frame.lean ====
section
/-! SUPPORT. Laws/Frame.lean: frames compose and weaken, and the frame of each plain update. -/

namespace Sys2Proof.Machine

theorem AgreeOn.refl (p : Part) (s : State) : AgreeOn p s s := by cases p <;> simp [AgreeOn]

theorem AgreeOn.trans {p : Part} {s t u : State} (h : AgreeOn p s t) (k : AgreeOn p t u) : AgreeOn p s u := by
  cases p <;> simp_all [AgreeOn]

theorem FrameBut.refl (ps : List Part) (s : State) : FrameBut ps s s := fun p _ => AgreeOn.refl p s

/-- Two changes in a row change at most what either changes. -/
theorem FrameBut.trans {ps : List Part} {s t u : State} (h : FrameBut ps s t) (k : FrameBut ps t u) :
    FrameBut ps s u := fun p hp => (h p hp).trans (k p hp)

/-- A frame with more exceptions says less. -/
theorem FrameBut.mono {ps qs : List Part} {s t : State} (h : FrameBut ps s t) (hsub : ∀ p ∈ ps, p ∈ qs) :
    FrameBut qs s t := fun p hp => h p fun hps => hp (hsub p hps)

theorem frame_setV (s : State) (x : Nibble) (b : Byte) : FrameBut [.v] s (s.setV x b) := by
  intro p hp; cases p <;> simp_all [AgreeOn]

theorem frame_setRegs (s : State) (v : Vector Byte 16) : FrameBut [.v] s (s.setRegs v) := by
  intro p hp; cases p <;> simp_all [AgreeOn]

theorem frame_setI (s : State) (w : Word) : FrameBut [.i] s (s.setI w) := by
  intro p hp; cases p <;> simp_all [AgreeOn]

theorem frame_setPc (s : State) (w : Word) : FrameBut [.pc] s (s.setPc w) := by
  intro p hp; cases p <;> simp_all [AgreeOn]

theorem frame_setStack (s : State) (p : Fin 17) (k : Vector Word 16) : FrameBut [.stack] s (s.setStack p k) := by
  intro p hp; cases p <;> simp_all [AgreeOn]

theorem frame_setDT (s : State) (b : Byte) : FrameBut [.dt] s (s.setDT b) := by
  intro p hp; cases p <;> simp_all [AgreeOn]

theorem frame_setST (s : State) (b : Byte) : FrameBut [.st] s (s.setST b) := by
  intro p hp; cases p <;> simp_all [AgreeOn]

theorem frame_setMem (s : State) (m : Memory) : FrameBut [.mem] s (s.setMem m) := by
  intro p hp; cases p <;> simp_all [AgreeOn]

theorem frame_setDisp (s : State) (d : Display) (c : Bool) : FrameBut [.disp, .dirty, .displayChanged] s (s.setDisp d c) := by
  intro p hp; cases p <;> simp_all [AgreeOn]

theorem frame_setLatch (s : State) (a : Bool) (g : Nibble) : FrameBut [.latch] s (s.setLatch a g) := by
  intro p hp; cases p <;> simp_all [AgreeOn]

theorem frame_setKey (s : State) (k : Nibble) (p : Bool) : FrameBut [.key] s (s.setKey k p) := by
  intro p hp; cases p <;> simp_all [AgreeOn]

theorem frame_setDirty (s : State) (d : Bool) : FrameBut [.dirty] s (s.setDirty d) := by
  intro p hp; cases p <;> simp_all [AgreeOn]

theorem frame_setChanged (s : State) (c : Bool) : FrameBut [.displayChanged] s (s.setChanged c) := by
  intro p hp; cases p <;> simp_all [AgreeOn]

theorem frame_setStopped (s : State) (b : Bool) : FrameBut [.stopped] s (s.setStopped b) := by
  intro p hp; cases p <;> simp_all [AgreeOn]

theorem frame_setTurns (s : State) (ts : List Turn) : FrameBut [.turns] s (s.setTurns ts) := by
  intro p hp; cases p <;> simp_all [AgreeOn]

theorem frame_tookDraw (s : State) : FrameBut [.draws] s (s.tookDraw) := by
  intro p hp; cases p <;> simp_all [AgreeOn]

theorem frame_setFault (s : State) (f : Option FaultRecord) : FrameBut [.fault] s (s.setFault f) := by
  intro p hp; cases p <;> simp_all [AgreeOn]

end Sys2Proof.Machine
end

