-- ==== Sys2Proof/Laws/Memory.lean ====
section
/-! SUPPORT. Laws/Memory.lean: reads after writes, and every write keeps the canonical form. -/

namespace Sys2Proof.Machine

/-- With its entries taken out, an address reads as unlisted and every other address as before. -/
theorem read_erase (base : Fin 433) (m : Memory) (a j : Nat) :
    Memory.read base (Memory.erase m a) j = if j = a then unlisted base a else Memory.read base m j := by
  induction m with
  | nil => by_cases hj : j = a <;> simp [Memory.erase, Memory.read, hj]
  | cons c m ih =>
    obtain ⟨k, w⟩ := c
    simp only [Memory.erase]
    by_cases hk : a = k <;> by_cases hj : j = a <;> by_cases hjk : j = k <;> simp_all [Memory.read]

/-- Reading after an insertion at an address that is not listed. -/
theorem read_insert (base : Fin 433) (m : Memory) (a j : Nat) (b : Byte) :
    Memory.read base (Memory.insert (Memory.erase m a) a b) j = if j = a then b else Memory.read base m j := by
  induction m with
  | nil => by_cases hj : j = a <;> simp [Memory.erase, Memory.insert, Memory.read, hj]
  | cons c m ih =>
    obtain ⟨k, w⟩ := c
    simp only [Memory.erase]
    by_cases hk : a = k
    · rw [if_pos hk, ih]; by_cases hj : j = a <;> simp_all [Memory.read]
    · rw [if_neg hk, Memory.insert]
      by_cases hlt : a < k
      · rw [if_pos hlt]
        by_cases hj : j = a
        · simp [Memory.read, hj]
        · simp [Memory.read, hj, read_erase]
      · rw [if_neg hlt]
        by_cases hjk : j = k
        · have : j ≠ a := by omega
          simp [Memory.read, hjk, Ne.symm hk]
        · simp only [Memory.read, hjk, if_false]; exact ih

/-- Reading after one write: the byte written at its address, the old byte elsewhere. -/
theorem read_write (base : Fin 433) (m : Memory) (a j : Nat) (b : Byte) :
    Memory.read base (Memory.write base m a b) j = if j = a then b else Memory.read base m j := by
  unfold Memory.write
  split
  · next h => rw [read_erase, h]
  · rw [read_insert]

/-- A canonical list stays canonical from a lower bound. -/
theorem wfFrom_mono (base : Fin 433) (m : Memory) (lo lo' : Nat) (h : Memory.wfFrom base lo m = true) (hl : lo' ≤ lo) :
    Memory.wfFrom base lo' m = true := by
  cases m with
  | nil => rfl
  | cons c m =>
    obtain ⟨k, w⟩ := c
    simp only [Memory.wfFrom, Bool.and_eq_true, decide_eq_true_eq] at h ⊢
    exact ⟨⟨⟨by omega, h.1.1.2⟩, h.1.2⟩, h.2⟩

/-- Taking entries out keeps the canonical form. -/
theorem erase_wfFrom (base : Fin 433) (m : Memory) (lo a : Nat) (h : Memory.wfFrom base lo m = true) :
    Memory.wfFrom base lo (Memory.erase m a) = true := by
  induction m generalizing lo with
  | nil => rfl
  | cons c m ih =>
    obtain ⟨k, w⟩ := c
    simp only [Memory.wfFrom, Bool.and_eq_true, decide_eq_true_eq] at h
    simp only [Memory.erase]
    split
    · exact wfFrom_mono base _ (k + 1) lo (ih (k + 1) h.2) (by omega)
    · simp only [Memory.wfFrom, Bool.and_eq_true, decide_eq_true_eq]
      exact ⟨h.1, ih (k + 1) h.2⟩

/-- Putting in a byte that differs from the unlisted one keeps the canonical form. -/
theorem insert_wfFrom (base : Fin 433) (m : Memory) (lo a : Nat) (b : Byte) (h : Memory.wfFrom base lo m = true)
    (hlo : lo ≤ a) (ha : a < memSize) (hb : b ≠ unlisted base a) :
    Memory.wfFrom base lo (Memory.insert (Memory.erase m a) a b) = true := by
  induction m generalizing lo with
  | nil => simp [Memory.erase, Memory.insert, Memory.wfFrom, hlo, ha, hb]
  | cons c m ih =>
    obtain ⟨k, w⟩ := c
    simp only [Memory.wfFrom, Bool.and_eq_true, decide_eq_true_eq] at h
    simp only [Memory.erase]
    split
    · exact ih lo (wfFrom_mono base m (k + 1) lo h.2 (by omega)) hlo
    · simp only [Memory.insert]
      split
      · next hlt =>
        simp only [Memory.wfFrom, Bool.and_eq_true, decide_eq_true_eq]
        exact ⟨⟨⟨hlo, ha⟩, hb⟩, ⟨⟨hlt, h.1.1.2⟩, h.1.2⟩, erase_wfFrom base m (k + 1) a h.2⟩
      · simp only [Memory.wfFrom, Bool.and_eq_true, decide_eq_true_eq]
        exact ⟨h.1, ih (k + 1) h.2 (by omega)⟩

/-- One write keeps the canonical form. -/
theorem write_wf (base : Fin 433) (m : Memory) (a : Nat) (b : Byte) (h : Memory.wf base m = true)
    (ha : a < memSize) : Memory.wf base (Memory.write base m a b) = true := by
  unfold Memory.write
  split
  · exact erase_wfFrom base m 0 a h
  · next hb => exact insert_wfFrom base m 0 a b h (Nat.zero_le a) ha hb

/-- A run of writes that stays below 4096 keeps the canonical form. -/
theorem writeBytes_wf (base : Fin 433) (bs : List Byte) (m : Memory) (a : Nat) (h : Memory.wf base m = true)
    (ha : a + bs.length ≤ memSize) : Memory.wf base (Memory.writeBytes base m a bs) = true := by
  induction bs generalizing m a with
  | nil => exact h
  | cons b bs ih =>
    simp only [List.length_cons] at ha
    exact ih _ _ (write_wf base m a b h (by omega)) (by omega)

/-- Reading after a run of writes: the byte of the list inside its range, the old byte outside. -/
theorem read_writeBytes (base : Fin 433) (bs : List Byte) (m : Memory) (a j : Nat) :
    Memory.read base (Memory.writeBytes base m a bs) j =
      if a ≤ j ∧ j < a + bs.length then bs.getD (j - a) 0 else Memory.read base m j := by
  induction bs generalizing m a with
  | nil => simp [Memory.writeBytes]
  | cons b bs ih =>
    simp only [List.length_cons]
    rw [Memory.writeBytes, ih, read_write]
    by_cases h1 : j = a
    · subst h1; simp
    · by_cases h2 : a + 1 ≤ j ∧ j < a + 1 + bs.length
      · have : j - a = j - (a + 1) + 1 := by omega
        rw [if_pos h2, if_pos (by omega), this, List.getD_cons_succ]
      · rw [if_neg h2, if_neg h1, if_neg (by omega)]

@[simp] theorem length_readBytes (base : Fin 433) (m : Memory) (a n : Nat) :
    (Memory.readBytes base m a n).length = n := by
  induction n generalizing a with
  | zero => rfl
  | succ n ih => simp [Memory.readBytes, ih]

/-- The k-th byte of a run of reads. -/
theorem getElem_readBytes (base : Fin 433) (m : Memory) (a n k : Nat) (h : k < (Memory.readBytes base m a n).length) :
    (Memory.readBytes base m a n)[k] = Memory.read base m (a + k) := by
  induction n generalizing a k with
  | zero => simp [Memory.readBytes] at h
  | succ n ih =>
    cases k with
    | zero => rfl
    | succ k =>
      simp only [Memory.readBytes, List.getElem_cons_succ]
      rw [ih]; congr 1; omega

@[simp] theorem wf_nil (base : Fin 433) : Memory.wf base [] = true := rfl

end Sys2Proof.Machine
end

