-- ==== Sys2Proof/Laws/Ops.lean ====
section
/-! SUPPORT. Laws/Ops.lean: for each shared operation of Ops, Operands and Flags, what it does. -/

namespace Sys2Proof.Machine

/-! ### pc, stores, the fatal state -/

@[simp] theorem advance_eq (s : State) : s.advance = s.setPc (s.pc + 2) := rfl
@[simp] theorem skip_eq (s : State) : s.skip = s.setPc (s.pc + 2) := rfl
@[simp] theorem rewind_eq (s : State) : s.rewind = s.setPc (s.pc - 2) := rfl
@[simp] theorem takeFatal_eq (s : State) (k : FatalKind) (op : Option Word) (a : Word) :
    s.takeFatal k op a = (s.setFault (some { kind := k, opcode := op, addr := a })).setChanged false := rfl

/-- Entry to the fatal state from decode or execution, in one place (R205, R206). -/
theorem raised_raise (s : State) (k : FatalKind) (op : Word) : Raised k op s (s.raise k op) := by
  refine ⟨rfl, rfl, ?_⟩
  intro p hp
  cases p <;> simp_all [AgreeOn, State.raise]

/-- A run of stores: the stored bytes read back, every other byte as before. -/
theorem readByte_writeBytes (s : State) (a j : Nat) (bs : List Byte) :
    (s.writeBytes a bs).readByte j =
      if a ≤ j ∧ j < a + bs.length then bs.getD (j - a) 0 else s.readByte j := by
  rw [State.writeBytes, readByte_setMem, read_writeBytes, State.readByte]

theorem frame_writeBytes (s : State) (a : Nat) (bs : List Byte) : FrameBut [.mem] s (s.writeBytes a bs) :=
  frame_setMem s _

/-- Stores below 4096 keep memory canonical. -/
theorem canonical_writeBytes (s : State) (a : Nat) (bs : List Byte) (h : MemoryCanonical s)
    (ha : a + bs.length ≤ memSize) : MemoryCanonical (s.writeBytes a bs) :=
  writeBytes_wf _ _ _ _ h ha

/-! ### The stack -/

theorem push_sp (s : State) (w : Word) (h : s.sp.val < 16) : (s.push w).sp.val = s.sp.val + 1 := by
  simp [State.push, h]

theorem push_stack (s : State) (w : Word) (h : s.sp.val < 16) (j : Nat) (hj : j < 16) :
    (s.push w).stack[j] = if j = s.sp.val then w else s.stack[j] := by
  simp [State.push, h, Vector.getElem_set, eq_comm (a := s.sp.val)]

theorem frame_push (s : State) (w : Word) : FrameBut [.stack] s (s.push w) := by
  unfold State.push
  split
  · exact frame_setStack _ _ _
  · exact FrameBut.refl _ _

@[simp] theorem drop_sp (s : State) : s.drop.sp.val = s.sp.val - 1 := rfl
@[simp] theorem drop_stack (s : State) : s.drop.stack = s.stack := rfl

theorem frame_drop (s : State) : FrameBut [.stack] s s.drop := frame_setStack _ _ _

/-! ### The fetch -/

/-- A fetch succeeds exactly where pc + 1 ≤ 4095 (R56). -/
theorem fetch_eq_none_iff (s : State) : s.fetch = none ↔ 4095 ≤ s.pc.toNat := by
  simp only [State.fetch]; split <;> simp <;> omega

theorem fetch_of_le (s : State) (h : s.pc.toNat ≤ 4094) :
    s.fetch = some (joinBytes (s.readByte s.pc.toNat) (s.readByte (s.pc.toNat + 1))) := by
  simp only [State.fetch]; rw [if_pos (by omega)]

/-! ### Operands -/

theorem outOfBounds_iff (s : State) (n : Nat) :
    s.outOfBounds n = true ↔ 0 < n ∧ s.i.toNat + n - 1 > 4095 := by
  simp [State.outOfBounds, State.atI]

@[simp] theorem length_regsUpTo (s : State) (x : Nibble) : (s.regsUpTo x).length = x.toNat + 1 := by
  have := x.isLt
  simp [State.regsUpTo]; omega

/-- The k-th byte that Fx55 stores is V[k]. -/
theorem getD_regsUpTo (s : State) (x : Nibble) (k : Nat) (h : k ≤ x.toNat) :
    (s.regsUpTo x).getD k 0 = s.readV (BitVec.ofNat 4 k) := by
  have := x.isLt
  have hk : k % 16 = k := Nat.mod_eq_of_lt (by omega)
  simp [State.regsUpTo, State.readV, List.getD_eq_getElem?_getD, hk, show k < x.toNat + 1 by omega,
    show k < 16 by omega]

/-- Fx65's loop: the registers k, k + 1, ... receive the bytes of the list, every other register keeps its value. -/
theorem getElem_fillRegs (bs : List Byte) (v : Vector Byte 16) (k j : Nat) (hj : j < 16) :
    (fillRegs v k bs)[j] = if k ≤ j ∧ j < k + bs.length then bs.getD (j - k) 0 else v[j] := by
  induction bs generalizing v k with
  | nil => simp [fillRegs]
  | cons b bs ih =>
    rw [fillRegs, ih, Vector.getElem_setIfInBounds]
    simp only [List.length_cons]
    by_cases h1 : j = k
    · subst h1; simp
    · by_cases h2 : k + 1 ≤ j ∧ j < k + 1 + bs.length
      · have : j - k = j - (k + 1) + 1 := by omega
        rw [if_pos h2, if_pos (by omega), this, List.getD_cons_succ]
      · rw [if_neg h2, if_neg (by omega), if_neg (by omega)]

@[simp] theorem toNat_zextAddr (nnn : Addr) : (zextAddr nnn).toNat = nnn.toNat := by
  have := nnn.isLt
  simp [zextAddr]; omega

@[simp] theorem toNat_zextByte (b : Byte) : (zextByte b).toNat = b.toNat := by
  have := b.isLt
  simp [zextByte]; omega

@[simp] theorem toNat_zextNibble (k : Nibble) : (zextNibble k).toNat = k.toNat := by
  have := k.isLt
  simp [zextNibble]; omega

theorem toNat_lowNibble (s : State) (x : Nibble) : (s.lowNibble x).toNat = (s.readV x).toNat % 16 := by
  simp [State.lowNibble]

theorem mem_keysDown (s : State) (k : Nibble) : k ∈ s.keysDown ↔ s.keyDown k = true := by
  have hk : k ∈ allKeys := by
    have h := k.isLt
    exact List.mem_map.2 ⟨k.toNat, List.mem_range.2 h, by simp⟩
  simp [State.keysDown, hk]

/-- The free choice is always a member of the set (R178). -/
theorem pickKey_mem (keys : List Nibble) (n : Nat) (h : keys ≠ []) : pickKey keys n ∈ keys := by
  have hpos : 0 < keys.length := List.length_pos_iff.2 h
  have hlt := Nat.mod_lt (Config.keyPick n) hpos
  simp [pickKey, List.getD_eq_getElem?_getD, List.getElem?_eq_getElem hlt]

/-! ### Flags -/

/-- The result is written first and the flag last (R22). -/
theorem readV_setResult (s : State) (x r : Nibble) (b : Byte) (f : Bool) :
    (s.setResult x b f).readV r = if r = vf then flagByte f else if r = x then b else s.readV r := by
  simp [State.setResult, State.setFlag]

theorem frame_setFlag (s : State) (f : Bool) : FrameBut [.v] s (s.setFlag f) := frame_setV _ _ _

theorem frame_setResult (s : State) (x : Nibble) (b : Byte) (f : Bool) : FrameBut [.v] s (s.setResult x b f) :=
  (frame_setV s x b).trans (frame_setV _ _ _)

/-- The 8-bit difference is the integer difference modulo 256 (R105). -/
theorem toNat_diffOf (a b : Byte) : ((diffOf a b).toNat : Int) = ((a.toNat : Int) - b.toNat) % 256 := by
  have ha := a.isLt
  have hb := b.isLt
  simp only [diffOf, BitVec.toNat_ofNat]
  omega

theorem frame_bumpI (s : State) (x : Nibble) : FrameBut [.i] s (s.bumpI x) := by
  unfold State.bumpI
  split
  · exact frame_setI _ _
  · exact FrameBut.refl _ _

theorem bumpI_i (s : State) (x : Nibble) :
    (s.bumpI x).i.toNat =
      if s.cfg.loadStoreIncI then (s.i.toNat + x.toNat + 1) % 65536 else s.i.toNat := by
  unfold State.bumpI
  split <;> simp

/-! ### Skips and ticks -/

/-- The skip mechanism (R134). -/
theorem skipIf_pc (s : State) (c : Bool) : (s.skipIf c).pc = if c then s.pc + 2 else s.pc := by
  unfold State.skipIf
  split <;> simp

theorem frame_skipIf (s : State) (c : Bool) : FrameBut [.pc] s (s.skipIf c) := by
  unfold State.skipIf
  split
  · exact frame_setPc _ _
  · exact FrameBut.refl _ _

/-- One timer's part of a tick never goes below zero (R215). -/
theorem toNat_tickTimer (b : Byte) : (tickTimer b).toNat = b.toNat - 1 := by
  have := b.isLt
  unfold tickTimer
  split
  · rw [BitVec.toNat_sub]; simp; omega
  · omega

theorem frame_tick (s : State) : FrameBut [.dt, .st] s s.tick :=
  ((frame_setDT _ _).mono (by simp)).trans ((frame_setST _ _).mono (by simp))

end Sys2Proof.Machine
end

