-- ==== Sys2Proof/Laws/Cycle.lean ====
section
/-! SUPPORT. Laws/Cycle.lean: what one step can do, said once: which agent acts, and the cases of the core's step
(spec/30_encoding.md R75, spec/60_exceptions.md R216). -/

namespace Sys2Proof.Machine

/-- A step is the next agent's action on the state with its turn taken off the schedule. -/
theorem step_eq (s : State) (h : s.stopped = false) : step s = takeTurn s.nextTurn (s.setTurns s.turns.tail) := by
  simp [step, cycle, h]

/-- A step that answers a next state is some agent's action, and the host has not stopped the machine. -/
theorem step_next {s t : State} (h : step s = .next t) :
    s.stopped = false ∧ takeTurn s.nextTurn (s.setTurns s.turns.tail) = .next t := by
  simp only [step, cycle] at h
  split at h
  · cases h
  · next hs => exact ⟨by simpa using hs, h⟩

/-- `begun` changes only the schedule and the step result. -/
theorem frame_begun (s : State) : FrameBut [.turns, .displayChanged] s s.begun := by
  intro p hp; cases p <;> simp_all [AgreeOn, State.begun]

@[simp] theorem begun_pc (s : State) : s.begun.pc = s.pc := rfl
@[simp] theorem begun_cfg (s : State) : s.begun.cfg = s.cfg := rfl
@[simp] theorem begun_fault (s : State) : s.begun.fault = s.fault := rfl
@[simp] theorem begun_mem (s : State) : s.begun.mem = s.mem := rfl
@[simp] theorem begun_stack (s : State) : s.begun.stack = s.stack := rfl
@[simp] theorem begun_sp (s : State) : s.begun.sp = s.sp := rfl
@[simp] theorem begun_v (s : State) : s.begun.v = s.v := rfl
@[simp] theorem fetch_begun (s : State) : s.begun.fetch = s.fetch := rfl
@[simp] theorem oddRefused_begun (s : State) : s.begun.oddRefused = s.oddRefused := rfl
@[simp] theorem halted_begun (s : State) : s.begun.halted = s.halted := rfl

/-- The core's step, case by case (R75). -/
theorem coreStep_eq (s : State) :
    coreStep s =
      if s.halted then .next (s.setChanged false)
      else if s.oddRefused then .refused .misalignedPc
      else
        match s.fetch with
        | none => .next ((s.setChanged false).takeFatal .memoryOutOfBounds none s.pc)
        | some op => runWord op (s.setChanged false) := rfl

/-- The four ways a core step answers a next state: nothing happens in the fatal state, the fetch raises, the fetched
word is illegal, or its instruction runs. -/
theorem coreStep_next {s t : State} (h : coreStep s = .next t) :
    (s.halted = true ∧ t = s.setChanged false) ∨
      (s.halted = false ∧ s.fetch = none ∧ t = (s.setChanged false).takeFatal .memoryOutOfBounds none s.pc) ∨
      (∃ op why, s.halted = false ∧ s.oddRefused = false ∧ s.fetch = some op ∧ decodeWord op = .illegal why ∧
        t = (s.setChanged false).advance.raise .decodeError op) ∨
      ∃ op i, s.halted = false ∧ s.oddRefused = false ∧ s.fetch = some op ∧ decodeWord op = .instr i ∧
        exec i (s.setChanged false).advance = .next t := by
  rw [coreStep_eq] at h
  by_cases hh : s.halted = true
  · rw [if_pos hh] at h; cases h; exact .inl ⟨hh, rfl⟩
  have hh' : s.halted = false := by simpa using hh
  rw [if_neg hh] at h
  by_cases ho : s.oddRefused = true
  · rw [if_pos ho] at h; cases h
  have ho' : s.oddRefused = false := by simpa using ho
  rw [if_neg ho] at h
  cases hf : s.fetch with
  | none => rw [hf] at h; cases h; exact .inr (.inl ⟨hh', rfl, rfl⟩)
  | some op =>
    rw [hf] at h
    simp only [runWord] at h
    cases hd : decodeWord op with
    | illegal why => rw [hd] at h; cases h; exact .inr (.inr (.inl ⟨op, why, hh', ho', rfl, hd, rfl⟩))
    | instr i => rw [hd] at h; exact .inr (.inr (.inr ⟨op, i, hh', ho', rfl, hd, h⟩))

/-- A step of a ready core is the core's step. -/
theorem step_core (s : State) (h : CoreReady s) : step s = coreStep (s.setTurns s.turns.tail) := by
  rw [step_eq s h.1, h.2.1]; rfl

/-- A ready core at an accepted pc that holds the word op runs op (R75). -/
theorem step_fetched (s : State) (op : Word) (h : CoreReady s) (ho : s.oddRefused = false) (hf : s.fetch = some op) :
    step s = runWord op s.begun := by
  have hh : (s.setTurns s.turns.tail).halted = false := by simp [State.halted, h.2.2]
  have ho' : (s.setTurns s.turns.tail).oddRefused = false := ho
  have hf' : (s.setTurns s.turns.tail).fetch = some op := hf
  rw [step_core s h, coreStep_eq, hh, ho', hf']; rfl

/-- What every invariant of the whole machine needs: it is kept by the bookkeeping of a step, by entry to the fatal
state, by every instruction executed at the advanced pc, and by the other agents. -/
structure KeptByParts (P : State → Prop) : Prop where
  turns : ∀ s ts, P s → P (s.setTurns ts)
  changed : ∀ s c, P s → P (s.setChanged c)
  fatal : ∀ s k o a, P s → P (s.takeFatal k o a)
  illegal : ∀ s op, P s → s.fetch = some op → P (s.advance.raise .decodeError op)
  instr : ∀ s t op i, P s → s.fetch = some op → decodeWord op = .instr i → exec i s.advance = .next t → P t
  tick : ∀ s, P s → P s.tick
  key : ∀ s k p, P s → P (s.setKey k p)
  dirty : ∀ s d, P s → P (s.setDirty d)
  stopped : ∀ s b, P s → P (s.setStopped b)

/-- Such a property is kept by every step. -/
theorem KeptByParts.step {P : State → Prop} (k : KeptByParts P) {s t : State} (hp : P s) (h : step s = .next t) :
    P t := by
  obtain ⟨-, h⟩ := step_next h
  have hp' : P (s.setTurns s.turns.tail) := k.turns _ _ hp
  cases hn : s.nextTurn <;> rw [hn] at h
  case core =>
    rcases coreStep_next h with ⟨-, rfl⟩ | ⟨-, -, rfl⟩ | ⟨op, _, -, -, hf, -, rfl⟩ | ⟨op, i, -, -, hf, hd, he⟩
    · exact k.changed _ _ hp'
    · exact k.fatal _ _ _ _ (k.changed _ _ hp')
    · exact k.illegal _ _ (k.changed _ _ hp') hf
    · exact k.instr ((s.setTurns s.turns.tail).setChanged false) _ op i (k.changed _ _ hp') hf hd he
  case tick => cases h; exact k.tick _ hp'
  case setKey =>
    simp only [takeTurn, actSetKey] at h
    split at h <;> cases h
    exact k.key _ _ _ hp'
  case present => cases h; exact k.dirty _ _ hp'
  case stop => cases h; exact k.stopped _ _ hp'

/-- A run goes on from the state a step answers. -/
theorem run_succ (k : Nat) {s t : State} (h : step s = .next t) : Sys2Proof.core.run (k + 1) s = Sys2Proof.core.run k t := by
  have h' : Sys2Proof.core.step s = .next t := h
  simp only [Host.Core.run, h']

/-- Bytes placed where the step fetches are what it fetches. -/
theorem fetch_placeBytes (s : State) (hi lo : Byte) :
    (s.placeBytes [hi, lo]).fetch = some (joinBytes hi lo) ∧ CoreReady (s.placeBytes [hi, lo]) ∧
      (s.placeBytes [hi, lo]).oddRefused = false := by
  have key : ∀ p : State, p.canFetch = true →
      let q := (((p.writeBytes p.pc.toNat [hi, lo]).setFault none).setTurns []).setStopped false
      q.fetch = some (joinBytes hi lo) ∧ CoreReady q ∧ q.oddRefused = false := by
    intro p hp
    simp only [State.canFetch, Bool.and_eq_true, Bool.not_eq_true', decide_eq_true_eq] at hp
    refine ⟨?_, ⟨rfl, rfl, rfl⟩, hp.1⟩
    rw [fetch_of_le _ (by show p.pc.toNat ≤ 4094; omega)]
    show some (joinBytes ((p.writeBytes p.pc.toNat [hi, lo]).readByte p.pc.toNat)
      ((p.writeBytes p.pc.toNat [hi, lo]).readByte (p.pc.toNat + 1))) = _
    rw [readByte_writeBytes, readByte_writeBytes]
    simp
  unfold State.placeBytes
  split
  · next hc => exact key s hc
  · next hc =>
    refine key (s.setPc 512) ?_
    simp [State.canFetch, State.oddRefused]

end Sys2Proof.Machine
end

