-- ==== Sys2Proof/Laws/Display.lean ====
section
/-! SUPPORT. Laws/Display.lean: what drawing a sprite does to each pixel, to the collision flag and to `changed`.
A sprite is a list of display coordinates, one for each set bit; no coordinate occurs twice (R161), so the order
of the loops does not matter. -/

namespace Sys2Proof.Machine

theorem pixelAt_flipPixel (d : Display) (y x j k : Nat) (h : y < 32 ∧ x < 64) (h' : j < 32 ∧ k < 64) :
    pixelAt (flipPixel d y x h) j k h' = if j = y ∧ k = x then !pixelAt d j k h' else pixelAt d j k h' := by
  by_cases hj : j = y
  · subst hj
    by_cases hk : k = x
    · subst hk; simp [pixelAt, flipPixel]
    · simp [pixelAt, flipPixel, hk, Ne.symm hk]
  · simp [pixelAt, flipPixel, hj, Ne.symm hj]

@[simp] theorem pixelAt_blank (y x : Nat) (h : y < 32 ∧ x < 64) : pixelAt blankDisplay y x h = false := by
  simp [pixelAt, blankDisplay]

/-- Two displays with the same pixels are equal. -/
theorem display_ext {d e : Display} (h : ∀ y x (hb : y < 32 ∧ x < 64), pixelAt d y x hb = pixelAt e y x hb) : d = e := by
  apply Vector.ext
  intro y hy
  apply Vector.ext
  intro x hx
  exact h y x ⟨hy, hx⟩

/-- Some pixel is set (R160). -/
theorem anyLit_iff (d : Display) :
    anyLit d = true ↔ ∃ y x, ∃ h : y < 32 ∧ x < 64, pixelAt d y x h = true := by
  constructor
  · intro h
    simp only [anyLit, List.any_eq_true, id] at h
    obtain ⟨row, hrow, b, hb, rfl⟩ := h
    obtain ⟨y, hy, rfl⟩ := List.mem_iff_getElem.1 hrow
    obtain ⟨x, hx, hp⟩ := List.mem_iff_getElem.1 hb
    simp only [Vector.length_toList] at hy hx
    exact ⟨y, x, ⟨hy, hx⟩, by simpa [pixelAt] using hp⟩
  · rintro ⟨y, x, ⟨hy, hx⟩, hp⟩
    simp only [anyLit, List.any_eq_true, id]
    refine ⟨d[y], by simp, true, ?_, rfl⟩
    rw [← hp]; simp [pixelAt]

/-- The display coordinates (column, row) of the set bits of one sprite row. -/
def rowHits (wrap : Bool) (px py : Nat) : List Bool → List (Nat × Nat)
  | [] => []
  | b :: bs =>
    let rest := rowHits wrap (px + 1) py bs
    if b then (wrapCoord wrap 64 px, wrapCoord wrap 32 py) :: rest else rest

/-- The display coordinates of the set bits of a sprite. -/
def spriteHits (wrap : Bool) (px py : Nat) : List Byte → List (Nat × Nat)
  | [] => []
  | row :: rows => rowHits wrap px py (spriteBits row) ++ spriteHits wrap px (py + 1) rows

/-- One set sprite bit at an already wrapped coordinate. -/
def plotAt (d : Drawing) (p : Nat × Nat) : Drawing := plot false p.1 p.2 d

theorem plot_eq_plotAt (wrap : Bool) (px py : Nat) (d : Drawing) :
    plot wrap px py d = plotAt d (wrapCoord wrap 64 px, wrapCoord wrap 32 py) := rfl

theorem drawBits_eq_foldl (wrap : Bool) (px py : Nat) (bs : List Bool) (d : Drawing) :
    drawBits wrap px py bs d = (rowHits wrap px py bs).foldl plotAt d := by
  induction bs generalizing px d with
  | nil => rfl
  | cons b bs ih => cases b <;> simp [drawBits, rowHits, ih, plot_eq_plotAt]

theorem drawRows_eq_foldl (wrap : Bool) (px py : Nat) (rows : List Byte) (d : Drawing) :
    drawRows wrap px py rows d = (spriteHits wrap px py rows).foldl plotAt d := by
  induction rows generalizing py d with
  | nil => rfl
  | cons row rows ih => simp [drawRows, spriteHits, ih, drawBits_eq_foldl]

theorem mem_rowHits (wrap : Bool) (px py : Nat) (bs : List Bool) (p : Nat × Nat) :
    p ∈ rowHits wrap px py bs ↔
      ∃ c, bs.getD c false = true ∧ p = (wrapCoord wrap 64 (px + c), wrapCoord wrap 32 py) := by
  induction bs generalizing px with
  | nil => simp [rowHits]
  | cons b bs ih =>
    have tail : (∃ c, bs.getD c false = true ∧ p = (wrapCoord wrap 64 (px + 1 + c), wrapCoord wrap 32 py)) ↔
        ∃ c, (b :: bs).getD (c + 1) false = true ∧ p = (wrapCoord wrap 64 (px + (c + 1)), wrapCoord wrap 32 py) := by
      simp only [List.getD_cons_succ, Nat.add_assoc, Nat.add_comm 1]
    simp only [rowHits]
    constructor
    · intro h
      cases b with
      | false => exact let ⟨c, hc⟩ := tail.1 ((ih (px + 1)).1 (by simpa using h)); ⟨c + 1, hc⟩
      | true =>
        rcases List.mem_cons.1 (by simpa using h) with h | h
        · exact ⟨0, rfl, h⟩
        · exact let ⟨c, hc⟩ := tail.1 ((ih (px + 1)).1 h); ⟨c + 1, hc⟩
    · rintro ⟨c, hc, hp⟩
      cases c with
      | zero =>
        have hb : b = true := by simpa using hc
        simp [hb, hp]
      | succ c =>
        have h := (ih (px + 1)).2 (tail.2 ⟨c, hc, hp⟩)
        cases b <;> simp [h]

theorem getD_spriteBits (b : Byte) (c : Nat) :
    (spriteBits b).getD c false = true ↔ c < 8 ∧ b.getLsbD (7 - c) = true := by
  by_cases h : c < 8
  · simp [spriteBits, h]
  · simp [spriteBits, h]

theorem mem_spriteHits (wrap : Bool) (px py : Nat) (rows : List Byte) (p : Nat × Nat) :
    p ∈ spriteHits wrap px py rows ↔
      ∃ r c, r < rows.length ∧ c < 8 ∧ (rows.getD r 0).getLsbD (7 - c) = true ∧
        p = (wrapCoord wrap 64 (px + c), wrapCoord wrap 32 (py + r)) := by
  induction rows generalizing py with
  | nil => simp [spriteHits]
  | cons row rows ih =>
    simp only [spriteHits, List.mem_append, mem_rowHits, getD_spriteBits, ih]
    constructor
    · rintro (⟨c, ⟨hc, hb⟩, hp⟩ | ⟨r, c, hr, hc, hb, hp⟩)
      · exact ⟨0, c, by simp, hc, hb, hp⟩
      · exact ⟨r + 1, c, by simpa using hr, hc, by simpa using hb, by rw [hp]; congr 2; omega⟩
    · rintro ⟨r, c, hr, hc, hb, hp⟩
      cases r with
      | zero => exact .inl ⟨c, ⟨hc, hb⟩, hp⟩
      | succ r => exact .inr ⟨r, c, by simpa using hr, hc, by simpa using hb, by rw [hp]; congr 2; omega⟩

/-- Inside a window of the display's size, different sprite coordinates name different display coordinates. -/
theorem wrapCoord_inj (wrap : Bool) (size a b k : Nat) (ha : k ≤ a ∧ a < k + size) (hb : k ≤ b ∧ b < k + size)
    (h : wrapCoord wrap size a = wrapCoord wrap size b) : a = b := by
  cases wrap with
  | false => exact h
  | true =>
    have hm : a % size = b % size := h
    have ea := Nat.div_add_mod a size
    have eb := Nat.div_add_mod b size
    rcases Nat.lt_trichotomy (a / size) (b / size) with hlt | heq | hgt
    · have := Nat.mul_le_mul_left size hlt
      rw [Nat.mul_succ] at this; omega
    · rw [heq] at ea; omega
    · have := Nat.mul_le_mul_left size hgt
      rw [Nat.mul_succ] at this; omega

theorem nodup_rowHits (wrap : Bool) (px py : Nat) (bs : List Bool) (h : bs.length ≤ 64) :
    (rowHits wrap px py bs).Nodup := by
  induction bs generalizing px with
  | nil => simp [rowHits]
  | cons b bs ih =>
    simp only [List.length_cons] at h
    have hrest := ih (px + 1) (by omega)
    cases b with
    | false => simpa [rowHits] using hrest
    | true =>
      simp only [rowHits, if_true, List.nodup_cons]
      refine ⟨?_, hrest⟩
      rw [mem_rowHits]
      rintro ⟨c, hc, hp⟩
      have hlt : c < bs.length := by
        by_contra hge
        rw [List.getD_eq_default _ _ (by omega)] at hc
        exact Bool.noConfusion hc
      have := wrapCoord_inj wrap 64 px (px + 1 + c) px (by omega) (by omega) (congrArg Prod.fst hp)
      omega

/-- No sprite of at most 32 rows overlaps itself (R161). -/
theorem nodup_spriteHits (wrap : Bool) (px py : Nat) (rows : List Byte) (h : rows.length ≤ 32) :
    (spriteHits wrap px py rows).Nodup := by
  induction rows generalizing py with
  | nil => simp [spriteHits]
  | cons row rows ih =>
    simp only [List.length_cons] at h
    rw [spriteHits, List.nodup_append]
    refine ⟨nodup_rowHits _ _ _ _ (by simp [spriteBits]), ih (py + 1) (by omega), ?_⟩
    intro p hp q hq heq
    subst heq
    obtain ⟨c, -, hp⟩ := (mem_rowHits _ _ _ _ _).1 hp
    obtain ⟨r, c', hr, -, -, hq⟩ := (mem_spriteHits _ _ _ _ _).1 hq
    have := wrapCoord_inj wrap 32 py (py + 1 + r) py (by omega) (by omega)
      (congrArg Prod.snd (hp.symm.trans hq))
    omega

/-- One set bit: its pixel, if on the grid, is inverted, and it collides if that pixel was set. -/
theorem plotAt_pixel (d : Drawing) (p : Nat × Nat) (j k : Nat) (h : j < 32 ∧ k < 64) :
    pixelAt (plotAt d p).disp j k h = if (k, j) = p then !pixelAt d.disp j k h else pixelAt d.disp j k h := by
  obtain ⟨x, y⟩ := p
  simp only [plotAt, plot, wrapCoord, Bool.false_eq_true, if_false, Prod.mk.injEq]
  split
  · simp only [pixelAt_flipPixel, and_comm]
  · next hb => rw [if_neg (by omega)]

theorem plotAt_collision (d : Drawing) (p : Nat × Nat) :
    (plotAt d p).collision = true ↔
      d.collision = true ∨ ∃ h : p.2 < 32 ∧ p.1 < 64, pixelAt d.disp p.2 p.1 h = true := by
  simp only [plotAt, plot, wrapCoord, Bool.false_eq_true, if_false]
  split
  · next hb => simp [hb]
  · next hb => simp [hb]

theorem plotAt_changed (d : Drawing) (p : Nat × Nat) :
    (plotAt d p).changed = true ↔ d.changed = true ∨ (p.2 < 32 ∧ p.1 < 64) := by
  simp only [plotAt, plot, wrapCoord, Bool.false_eq_true, if_false]
  split
  · next hb => simp [hb]
  · next hb => simp [hb]

/-- Drawing a list of different coordinates inverts exactly their pixels. -/
theorem foldl_plotAt_pixel (ps : List (Nat × Nat)) (d : Drawing) (hn : ps.Nodup) (j k : Nat) (h : j < 32 ∧ k < 64) :
    pixelAt (ps.foldl plotAt d).disp j k h = if (k, j) ∈ ps then !pixelAt d.disp j k h else pixelAt d.disp j k h := by
  induction ps generalizing d with
  | nil => simp
  | cons p ps ih =>
    obtain ⟨hp, hn⟩ := List.nodup_cons.1 hn
    rw [List.foldl_cons, ih _ hn, plotAt_pixel]
    by_cases h1 : (k, j) = p
    · subst h1; simp [hp]
    · simp [h1]

/-- It collides exactly if one of their pixels was set before. -/
theorem foldl_plotAt_collision (ps : List (Nat × Nat)) (d : Drawing) (hn : ps.Nodup) :
    (ps.foldl plotAt d).collision = true ↔
      d.collision = true ∨ ∃ y x, ∃ h : y < 32 ∧ x < 64, (x, y) ∈ ps ∧ pixelAt d.disp y x h = true := by
  induction ps generalizing d with
  | nil => simp
  | cons p ps ih =>
    obtain ⟨hp, hn⟩ := List.nodup_cons.1 hn
    rw [List.foldl_cons, ih _ hn, plotAt_collision]
    constructor
    · rintro ((h | ⟨hb, h⟩) | ⟨y, x, hb, hm, h⟩)
      · exact .inl h
      · exact .inr ⟨p.2, p.1, hb, List.mem_cons_self, h⟩
      · have hne : (x, y) ≠ p := by rintro rfl; exact hp hm
        rw [plotAt_pixel, if_neg hne] at h
        exact .inr ⟨y, x, hb, List.mem_cons_of_mem _ hm, h⟩
    · rintro (h | ⟨y, x, hb, hm, h⟩)
      · exact .inl (.inl h)
      · rcases List.mem_cons.1 hm with he | hin
        · subst he; exact .inl (.inr ⟨hb, h⟩)
        · refine .inr ⟨y, x, hb, hin, ?_⟩
          have hne : (x, y) ≠ p := by rintro rfl; exact hp hin
          rw [plotAt_pixel, if_neg hne, h]

/-- Something changes exactly if one of their pixels is on the grid. -/
theorem foldl_plotAt_changed (ps : List (Nat × Nat)) (d : Drawing) :
    (ps.foldl plotAt d).changed = true ↔
      d.changed = true ∨ ∃ y x, (y < 32 ∧ x < 64) ∧ (x, y) ∈ ps := by
  induction ps generalizing d with
  | nil => simp
  | cons p ps ih =>
    rw [List.foldl_cons, ih, plotAt_changed]
    constructor
    · rintro ((h | h) | ⟨y, x, hb, hm⟩)
      · exact .inl h
      · exact .inr ⟨p.2, p.1, h, List.mem_cons_self⟩
      · exact .inr ⟨y, x, hb, List.mem_cons_of_mem _ hm⟩
    · rintro (h | ⟨y, x, hb, hm⟩)
      · exact .inl (.inl h)
      · rcases List.mem_cons.1 hm with he | hm
        · subst he; exact .inl (.inr hb)
        · exact .inr ⟨y, x, hb, hm⟩

/-- The coordinates of the sprite that Dxyn draws in s. -/
def State.hits (s : State) (x y n : Nibble) : List (Nat × Nat) :=
  spriteHits s.cfg.wrap (s.readV x).toNat (s.readV y).toNat (s.readBytes (s.atI 0) n.toNat)

theorem nodup_hits (s : State) (x y n : Nibble) : (s.hits x y n).Nodup := by
  have := n.isLt
  exact nodup_spriteHits _ _ _ _ (by simp [State.readBytes]; omega)

theorem drawSprite_eq (s : State) (x y n : Nibble) :
    s.drawSprite x y n = (s.hits x y n).foldl plotAt { disp := s.disp, collision := false, changed := false } :=
  drawRows_eq_foldl _ _ _ _ _

/-- The coordinates are those the sprite covers in the sense of `SpriteCovers` (R161). -/
theorem mem_hits (s : State) (x y n : Nibble) (px py : Nat) :
    (px, py) ∈ s.hits x y n ↔ SpriteCovers s x y n px py := by
  simp only [State.hits, mem_spriteHits, SpriteCovers, State.readBytes, length_readBytes, State.atI, Nat.add_zero]
  refine exists_congr fun r => exists_congr fun c => and_congr_right fun hr => and_congr_right fun _ => ?_
  rw [List.getD_eq_getElem _ _ (by simpa using hr), getElem_readBytes]
  refine and_congr Iff.rfl ?_
  unfold wrapCoord
  split <;> simp only [Prod.mk.injEq, eq_comm]

/-- Drawing the sprite of Dxyn: which pixels it inverts, when it collides, when anything changes (R161). -/
theorem drawSprite_spec (s : State) (x y n : Nibble) :
    (∀ py px (h : py < 32 ∧ px < 64),
      pixelAt (s.drawSprite x y n).disp py px h ≠ pixelAt s.disp py px h ↔ SpriteCovers s x y n px py) ∧
    ((s.drawSprite x y n).collision = true ↔
      ∃ py px, ∃ h : py < 32 ∧ px < 64, SpriteCovers s x y n px py ∧ pixelAt s.disp py px h = true) ∧
    ((s.drawSprite x y n).changed = true ↔ ∃ py px, (py < 32 ∧ px < 64) ∧ SpriteCovers s x y n px py) := by
  refine ⟨fun py px h => ?_, ?_, ?_⟩
  · rw [drawSprite_eq, foldl_plotAt_pixel _ _ (nodup_hits s x y n), ← mem_hits]
    split <;> simp_all
  · rw [drawSprite_eq, foldl_plotAt_collision _ _ (nodup_hits s x y n)]
    simp [mem_hits]
  · rw [drawSprite_eq, foldl_plotAt_changed]
    simp [mem_hits]

end Sys2Proof.Machine
end

