-- ==== Sys2Proof/Laws/Executions.lean ====
section
/-! SUPPORT. Laws/Executions.lean: no agent's action depends on the schedule, so the first transitions of an execution
are a run on a list of turns, and what one transition of an execution does to a timer (spec/60_exceptions.md R216). -/

namespace Sys2Proof.Machine

theorem skipIf_setTurns (s : State) (ts : List Turn) (c : Bool) :
    (s.setTurns ts).skipIf c = (s.skipIf c).setTurns ts := by cases c <;> rfl

theorem bumpI_setTurns (s : State) (ts : List Turn) (x : Nibble) :
    (s.setTurns ts).bumpI x = (s.bumpI x).setTurns ts := by
  unfold State.bumpI
  by_cases c : s.cfg.loadStoreIncI = true
  · rw [if_pos c, if_pos (show (s.setTurns ts).cfg.loadStoreIncI = true from c)]; rfl
  · rw [if_neg c, if_neg (show ¬(s.setTurns ts).cfg.loadStoreIncI = true from c)]

theorem push_setTurns (s : State) (ts : List Turn) (w : Word) : (s.setTurns ts).push w = (s.push w).setTurns ts := by
  unfold State.push
  by_cases c : s.sp.val < 16
  · rw [dif_pos c, dif_pos (show (s.setTurns ts).sp.val < 16 from c)]; rfl
  · rw [dif_neg c, dif_neg (show ¬(s.setTurns ts).sp.val < 16 from c)]

/-- An instruction's effect does not depend on the schedule and leaves it alone. -/
theorem exec_setTurns (i : Instr) {s t : State} (ts : List Turn) (h : exec i s = .next t) :
    exec i (s.setTurns ts) = .next (t.setTurns ts) := by
  cases i
  case seByte | sneByte | seReg | sneReg | skp | sknp => cases h; exact congrArg _ (skipIf_setTurns _ _ _)
  case ret =>
    simp only [exec, execRet] at h ⊢
    split at h <;> cases h
    · rw [if_pos ‹_›]; rfl
    · rw [if_neg ‹_›]; rfl
  case call =>
    simp only [exec, execCall] at h ⊢
    split at h <;> cases h
    · rw [if_pos ‹_›]; rfl
    · rw [if_neg ‹_›, setTurns_pc, push_setTurns]; rfl
  case drw =>
    simp only [exec, execDrw] at h ⊢
    split at h <;> cases h
    · rw [if_pos ‹_›]; rfl
    · rw [if_neg ‹_›]; rfl
  case ldVxK =>
    simp only [exec, execLdVxK] at h ⊢
    have hk : (s.setTurns ts).keysDown = s.keysDown := rfl
    rw [hk]
    cases hs : s.keysDown <;> rw [hs] at h <;> cases h <;> rfl
  case ldB =>
    simp only [exec, execLdB] at h ⊢
    split at h <;> cases h
    · rw [if_pos ‹_›]; rfl
    · rw [if_neg ‹_›]; rfl
  case storeRegs x =>
    simp only [exec, execStoreRegs] at h ⊢
    split at h <;> cases h
    · rw [if_pos ‹_›]; rfl
    · rw [if_neg ‹_›, ← bumpI_setTurns]; rfl
  case loadRegs x =>
    simp only [exec, execLoadRegs] at h ⊢
    split at h <;> cases h
    · rw [if_pos ‹_›]; rfl
    · rw [if_neg ‹_›, ← bumpI_setTurns]; rfl
  all_goals cases h; rfl

/-- An agent's action does not depend on the schedule and leaves it alone. -/
theorem takeTurn_setTurns (a : Turn) {s t : State} (ts : List Turn) (h : takeTurn a s = .next t) :
    takeTurn a (s.setTurns ts) = .next (t.setTurns ts) := by
  cases a
  case core =>
    show coreStep (s.setTurns ts) = _
    have e := coreStep_eq (s.setTurns ts)
    have h' : s.halted = (s.setTurns ts).halted ∧ s.oddRefused = (s.setTurns ts).oddRefused ∧
      s.fetch = (s.setTurns ts).fetch := ⟨rfl, rfl, rfl⟩
    rw [← h'.1, ← h'.2.1, ← h'.2.2] at e
    rw [e]
    rcases coreStep_next h with ⟨hh, rfl⟩ | ⟨hh, hf, rfl⟩ | ⟨op, why, hh, ho, hf, hd, rfl⟩ | ⟨op, i, hh, ho, hf, hd, he⟩
    · rw [hh]; rfl
    · have : s.oddRefused = false := by
        cases ho : s.oddRefused with
        | false => rfl
        | true =>
          have h : coreStep s = .next _ := h
          rw [coreStep_eq, hh, ho] at h; cases h
      rw [hh, this, hf]; rfl
    · rw [hh, ho, hf]; simp only [runWord, hd]; rfl
    · rw [hh, ho, hf]; simp only [runWord, hd]; exact exec_setTurns i ts he
  case setKey =>
    simp only [takeTurn, actSetKey] at h ⊢
    split at h <;> cases h
    rw [if_pos ‹_›]; rfl
  all_goals cases h; rfl

/-- A transition on a longer schedule is the transition on its first turn, with the rest left. -/
theorem step_longer {s t : State} {a : Turn} (ts : List Turn) (h : step (s.setTurns [a]) = .next t) :
    step (s.setTurns (a :: ts)) = .next (t.setTurns ts) := by
  obtain ⟨hs, h⟩ := step_next h
  rw [step_eq (s.setTurns (a :: ts)) hs]
  exact takeTurn_setTurns (s := s.setTurns []) a ts h

/-- The transitions of an execution from state k on are a run on the list of their turns. -/
theorem run_execution {τ : Schedule} {σ : Nat → State} (N k : Nat) (h : ExecutionTo τ σ (k + N)) :
    Sys2Proof.core.run N ((σ k).setTurns ((List.range' k N).map τ)) = .next ((σ (k + N)).setTurns []) := by
  induction N generalizing k with
  | zero => rfl
  | succ N ih =>
    rw [List.range'_succ, List.map_cons, run_succ N (step_longer _ (h k (by omega)))]
    have e := ih (k + 1) (by rwa [Nat.add_right_comm, Nat.add_assoc])
    rwa [Nat.add_right_comm, Nat.add_assoc] at e

/-- Only Fx15 writes DT and only Fx18 writes ST (R36). -/
theorem exec_timers {i : Instr} {s t : State} (h : exec i s = .next t) :
    ((∀ x, i ≠ .ldDtVx x) → t.dt = s.dt) ∧ ((∀ x, i ≠ .ldStVx x) → t.st = s.st) := by
  have hp : ∀ w, (s.push w).dt = s.dt ∧ (s.push w).st = s.st := by
    intro w; unfold State.push; split <;> exact ⟨rfl, rfl⟩
  have hb : ∀ (u : State) x, (u.bumpI x).dt = u.dt ∧ (u.bumpI x).st = u.st := by
    intro u x; unfold State.bumpI; split <;> exact ⟨rfl, rfl⟩
  have hk : ∀ c, (s.skipIf c).dt = s.dt ∧ (s.skipIf c).st = s.st := by
    intro c; cases c <;> exact ⟨rfl, rfl⟩
  cases i
  case ldDtVx x => cases h; exact ⟨fun n => absurd rfl (n x), fun _ => rfl⟩
  case ldStVx x => cases h; exact ⟨fun _ => rfl, fun n => absurd rfl (n x)⟩
  case seByte | sneByte | seReg | sneReg | skp | sknp => cases h; exact ⟨fun _ => (hk _).1, fun _ => (hk _).2⟩
  case call =>
    simp only [exec, execCall] at h
    split at h <;> cases h
    · exact ⟨fun _ => rfl, fun _ => rfl⟩
    · exact ⟨fun _ => (hp _).1, fun _ => (hp _).2⟩
  case storeRegs =>
    simp only [exec, execStoreRegs] at h
    split at h <;> cases h
    · exact ⟨fun _ => rfl, fun _ => rfl⟩
    · exact ⟨fun _ => (hb _ _).1, fun _ => (hb _ _).2⟩
  case loadRegs =>
    simp only [exec, execLoadRegs] at h
    split at h <;> cases h
    · exact ⟨fun _ => rfl, fun _ => rfl⟩
    · exact ⟨fun _ => (hb _ _).1, fun _ => (hb _ _).2⟩
  case ret | drw | ldB | ldVxK =>
    simp only [exec, execRet, execDrw, execLdB, execLdVxK] at h
    split at h <;> cases h <;> exact ⟨fun _ => rfl, fun _ => rfl⟩
  all_goals cases h; exact ⟨fun _ => rfl, fun _ => rfl⟩

/-- One transition of an execution and the timers: a tick decrements both, any other agent leaves a timer alone unless
the core executes the instruction that writes it. -/
theorem transition_timers {a : Turn} {s t : State} (h : step (s.setTurns [a]) = .next t) :
    (a = .tick → t.dt = tickTimer s.dt ∧ t.st = tickTimer s.st) ∧
      (a ≠ .tick → (a = .core → ∀ x, ¬Executes s (.ldDtVx x)) → t.dt = s.dt) ∧
      (a ≠ .tick → (a = .core → ∀ x, ¬Executes s (.ldStVx x)) → t.st = s.st) := by
  obtain ⟨-, h⟩ := step_next h
  change takeTurn a (s.setTurns []) = .next t at h
  cases a
  case tick => cases h; exact ⟨fun _ => ⟨rfl, rfl⟩, by simp, by simp⟩
  case core =>
    refine ⟨by simp, ?_, ?_⟩ <;> intro _ hw <;>
      rcases coreStep_next h with ⟨-, rfl⟩ | ⟨-, -, rfl⟩ | ⟨_, _, -, -, -, -, rfl⟩ | ⟨op, i, hh, ho, hf, hd, he⟩
    all_goals first | rfl | skip
    · exact (exec_timers he).1 fun x hi => hw rfl x ⟨Option.isSome_eq_false_iff.1 hh |> Option.isNone_iff_eq_none.1, ho, op, hf, hi ▸ hd⟩
    · exact (exec_timers he).2 fun x hi => hw rfl x ⟨Option.isSome_eq_false_iff.1 hh |> Option.isNone_iff_eq_none.1, ho, op, hf, hi ▸ hd⟩
  case setKey =>
    simp only [takeTurn, actSetKey] at h
    split at h <;> cases h
    exact ⟨by simp, fun _ _ => rfl, fun _ _ => rfl⟩
  all_goals cases h; exact ⟨by simp, fun _ _ => rfl, fun _ _ => rfl⟩

end Sys2Proof.Machine
end

