-- ==== Sys2Proof/Laws/PerInstr.lean ====
section
/-! SUPPORT. Laws/PerInstr.lean: the family TableRow, one lemma per constructor: the word of an instruction meets the
mask and match of its row of spec/opcode_table.json. -/

namespace Sys2Proof.Laws.TableRow

/-- (mask, match) of the instruction's row of spec/opcode_table.json. -/
def row : Instr → Word × Word
  | .cls => (0xFFFF#16, 0x00E0#16)
  | .ret => (0xFFFF#16, 0x00EE#16)
  | .jp _ => (0xF000#16, 0x1000#16)
  | .call _ => (0xF000#16, 0x2000#16)
  | .seByte _ _ => (0xF000#16, 0x3000#16)
  | .sneByte _ _ => (0xF000#16, 0x4000#16)
  | .seReg _ _ => (0xF00F#16, 0x5000#16)
  | .ldByte _ _ => (0xF000#16, 0x6000#16)
  | .addByte _ _ => (0xF000#16, 0x7000#16)
  | .ldReg _ _ => (0xF00F#16, 0x8000#16)
  | .orReg _ _ => (0xF00F#16, 0x8001#16)
  | .andReg _ _ => (0xF00F#16, 0x8002#16)
  | .xorReg _ _ => (0xF00F#16, 0x8003#16)
  | .addReg _ _ => (0xF00F#16, 0x8004#16)
  | .subReg _ _ => (0xF00F#16, 0x8005#16)
  | .shr _ _ => (0xF00F#16, 0x8006#16)
  | .subnReg _ _ => (0xF00F#16, 0x8007#16)
  | .shl _ _ => (0xF00F#16, 0x800E#16)
  | .sneReg _ _ => (0xF00F#16, 0x9000#16)
  | .ldI _ => (0xF000#16, 0xA000#16)
  | .jpV0 _ => (0xF000#16, 0xB000#16)
  | .rnd _ _ => (0xF000#16, 0xC000#16)
  | .drw _ _ _ => (0xF000#16, 0xD000#16)
  | .skp _ => (0xF0FF#16, 0xE09E#16)
  | .sknp _ => (0xF0FF#16, 0xE0A1#16)
  | .ldVxDt _ => (0xF0FF#16, 0xF007#16)
  | .ldVxK _ => (0xF0FF#16, 0xF00A#16)
  | .ldDtVx _ => (0xF0FF#16, 0xF015#16)
  | .ldStVx _ => (0xF0FF#16, 0xF018#16)
  | .addI _ => (0xF0FF#16, 0xF01E#16)
  | .ldF _ => (0xF0FF#16, 0xF029#16)
  | .ldB _ => (0xF0FF#16, 0xF033#16)
  | .storeRegs _ => (0xF0FF#16, 0xF055#16)
  | .loadRegs _ => (0xF0FF#16, 0xF065#16)

/-- The word of i, masked as its row says, is the row's match. -/
def Statement (i : Instr) : Prop := encode i &&& (row i).1 = (row i).2

section masks
variable (f x y n : Nibble)

theorem maskNNN (nnn : Addr) : encodeNNN f nnn &&& 0xF000#16 = encodeNNN f 0 := by
  show (f ++ nnn) &&& (0xF#4 ++ 0#12) = f ++ 0#12
  rw [BitVec.and_append, BitVec.and_zero, show f &&& 0xF#4 = f from BitVec.and_allOnes]

theorem maskXKK (kk : Byte) : encodeXKK f x kk &&& 0xF000#16 = encodeXKK f 0 0 := by
  show (f ++ x ++ kk) &&& (0xF#4 ++ 0#4 ++ 0#8) = f ++ 0#4 ++ 0#8
  rw [BitVec.and_append, BitVec.and_append, BitVec.and_zero, BitVec.and_zero,
    show f &&& 0xF#4 = f from BitVec.and_allOnes]

theorem maskXYN : encodeXYN f x y n &&& 0xF000#16 = encodeXYN f 0 0 0 := by
  show (f ++ x ++ y ++ n) &&& (0xF#4 ++ 0#4 ++ 0#4 ++ 0#4) = f ++ 0#4 ++ 0#4 ++ 0#4
  rw [BitVec.and_append, BitVec.and_append, BitVec.and_append, BitVec.and_zero, BitVec.and_zero, BitVec.and_zero,
    show f &&& 0xF#4 = f from BitVec.and_allOnes]

theorem maskXY : encodeXYN f x y n &&& 0xF00F#16 = encodeXYN f 0 0 n := by
  show (f ++ x ++ y ++ n) &&& (0xF#4 ++ 0#4 ++ 0#4 ++ 0xF#4) = f ++ 0#4 ++ 0#4 ++ n
  rw [BitVec.and_append, BitVec.and_append, BitVec.and_append, BitVec.and_zero, BitVec.and_zero,
    show f &&& 0xF#4 = f from BitVec.and_allOnes, show n &&& 0xF#4 = n from BitVec.and_allOnes]

theorem maskX (kk : Byte) : encodeXKK f x kk &&& 0xF0FF#16 = encodeXKK f 0 kk := by
  show (f ++ x ++ kk) &&& (0xF#4 ++ 0#4 ++ 0xFF#8) = f ++ 0#4 ++ kk
  rw [BitVec.and_append, BitVec.and_append, BitVec.and_zero,
    show f &&& 0xF#4 = f from BitVec.and_allOnes, show kk &&& 0xFF#8 = kk from BitVec.and_allOnes]

end masks

theorem cls : Statement .cls := by unfold Statement; decide

theorem ret : Statement .ret := by unfold Statement; decide

theorem jp (nnn : Addr) : Statement (.jp nnn) := maskNNN 0x1#4 nnn

theorem call (nnn : Addr) : Statement (.call nnn) := maskNNN 0x2#4 nnn

theorem seByte (x : Nibble) (kk : Byte) : Statement (.seByte x kk) := maskXKK 0x3#4 x kk

theorem sneByte (x : Nibble) (kk : Byte) : Statement (.sneByte x kk) := maskXKK 0x4#4 x kk

theorem seReg (x y : Nibble) : Statement (.seReg x y) := maskXY 0x5#4 x y 0x0#4

theorem ldByte (x : Nibble) (kk : Byte) : Statement (.ldByte x kk) := maskXKK 0x6#4 x kk

theorem addByte (x : Nibble) (kk : Byte) : Statement (.addByte x kk) := maskXKK 0x7#4 x kk

theorem ldReg (x y : Nibble) : Statement (.ldReg x y) := maskXY 0x8#4 x y 0x0#4

theorem orReg (x y : Nibble) : Statement (.orReg x y) := maskXY 0x8#4 x y 0x1#4

theorem andReg (x y : Nibble) : Statement (.andReg x y) := maskXY 0x8#4 x y 0x2#4

theorem xorReg (x y : Nibble) : Statement (.xorReg x y) := maskXY 0x8#4 x y 0x3#4

theorem addReg (x y : Nibble) : Statement (.addReg x y) := maskXY 0x8#4 x y 0x4#4

theorem subReg (x y : Nibble) : Statement (.subReg x y) := maskXY 0x8#4 x y 0x5#4

theorem shr (x y : Nibble) : Statement (.shr x y) := maskXY 0x8#4 x y 0x6#4

theorem subnReg (x y : Nibble) : Statement (.subnReg x y) := maskXY 0x8#4 x y 0x7#4

theorem shl (x y : Nibble) : Statement (.shl x y) := maskXY 0x8#4 x y 0xE#4

theorem sneReg (x y : Nibble) : Statement (.sneReg x y) := maskXY 0x9#4 x y 0x0#4

theorem ldI (nnn : Addr) : Statement (.ldI nnn) := maskNNN 0xA#4 nnn

theorem jpV0 (nnn : Addr) : Statement (.jpV0 nnn) := maskNNN 0xB#4 nnn

theorem rnd (x : Nibble) (kk : Byte) : Statement (.rnd x kk) := maskXKK 0xC#4 x kk

theorem drw (x y n : Nibble) : Statement (.drw x y n) := maskXYN 0xD#4 x y n

theorem skp (x : Nibble) : Statement (.skp x) := maskX 0xE#4 x 0x9E#8

theorem sknp (x : Nibble) : Statement (.sknp x) := maskX 0xE#4 x 0xA1#8

theorem ldVxDt (x : Nibble) : Statement (.ldVxDt x) := maskX 0xF#4 x 0x07#8

theorem ldVxK (x : Nibble) : Statement (.ldVxK x) := maskX 0xF#4 x 0x0A#8

theorem ldDtVx (x : Nibble) : Statement (.ldDtVx x) := maskX 0xF#4 x 0x15#8

theorem ldStVx (x : Nibble) : Statement (.ldStVx x) := maskX 0xF#4 x 0x18#8

theorem addI (x : Nibble) : Statement (.addI x) := maskX 0xF#4 x 0x1E#8

theorem ldF (x : Nibble) : Statement (.ldF x) := maskX 0xF#4 x 0x29#8

theorem ldB (x : Nibble) : Statement (.ldB x) := maskX 0xF#4 x 0x33#8

theorem storeRegs (x : Nibble) : Statement (.storeRegs x) := maskX 0xF#4 x 0x55#8

theorem loadRegs (x : Nibble) : Statement (.loadRegs x) := maskX 0xF#4 x 0x65#8

end Sys2Proof.Laws.TableRow
end

