-- ==== Sys2Proof/Tests/Slice0.lean ====
section
/-! SUPPORT. Tests/Slice0.lean: one-step tests and decode tests with values taken from spec/95_test_vectors.md and the
instruction rules, the smoke test of WellFormed, and for each statement with hypotheses a witness that meets them. -/

namespace Sys2Proof.Tests

open Sys2Proof.Machine

/-- The reset state with one instruction word at 0x200. -/
def start (w : Nat) : State := State.reset.withFetchWord 16 w

/-- One step answers a next state that passes the check. -/
def check (s : State) (p : State → Bool) : Bool :=
  match step s with
  | .next t => p t
  | _ => false

/-- The columns of the set pixels of one row. -/
def litColumns (s : State) (y : Fin 32) : List Nat := (List.range 64).filter fun x => (s.disp[y]).toList.getD x false

/-! ### Well-formedness -/

theorem test_wellFormed_jp_odd_refused : (Instr.jp 0x201).wellFormed = false ∧ (Instr.jp 0x202).wellFormed = true := by
  decide

theorem test_wellFormed_call_odd_refused :
    (Instr.call 0xFFF).wellFormed = false ∧ (Instr.call 0xFFE).wellFormed = true := by decide

/-! ### Decoding: for every constructor a word written out from its encoding (30_encoding.md R80 to R85) -/

theorem test_decode_control :
    decodeWord 0b0000000011100000 = .instr .cls ∧ decodeWord 0b0000000011101110 = .instr .ret ∧
    decodeWord 0b0001001000110100 = .instr (.jp 0x234) ∧ decodeWord 0b0010001100000000 = .instr (.call 0x300) ∧
    decodeWord 0b1011001100000000 = .instr (.jpV0 0x300) := by decide

theorem test_decode_skip :
    decodeWord 0b0011101000000101 = .instr (.seByte 0xA 0x05) ∧
    decodeWord 0b0100101000000101 = .instr (.sneByte 0xA 0x05) ∧
    decodeWord 0b0101000100100000 = .instr (.seReg 1 2) ∧ decodeWord 0b1001000100100000 = .instr (.sneReg 1 2) := by
  decide

theorem test_decode_load_arith :
    decodeWord 0b0110101000101011 = .instr (.ldByte 0xA 0x2B) ∧ decodeWord 0b0111000000000101 = .instr (.addByte 0 5) ∧
    decodeWord 0b1000000100100000 = .instr (.ldReg 1 2) ∧ decodeWord 0b1010001011110000 = .instr (.ldI 0x2F0) ∧
    decodeWord 0b1000000000010100 = .instr (.addReg 0 1) ∧ decodeWord 0b1000000000010101 = .instr (.subReg 0 1) ∧
    decodeWord 0b1000000000010111 = .instr (.subnReg 0 1) ∧ decodeWord 0b1111001000011110 = .instr (.addI 2) := by decide

theorem test_decode_bitwise :
    decodeWord 0b1000000100100001 = .instr (.orReg 1 2) ∧ decodeWord 0b1000000100100010 = .instr (.andReg 1 2) ∧
    decodeWord 0b1000000100100011 = .instr (.xorReg 1 2) ∧ decodeWord 0b1000000100100110 = .instr (.shr 1 2) ∧
    decodeWord 0b1000000100101110 = .instr (.shl 1 2) := by decide

theorem test_decode_memory_display :
    decodeWord 0b1111001001010101 = .instr (.storeRegs 2) ∧ decodeWord 0b1111000101100101 = .instr (.loadRegs 1) ∧
    decodeWord 0b1111000000110011 = .instr (.ldB 0) ∧ decodeWord 0b1111001100101001 = .instr (.ldF 3) ∧
    decodeWord 0b1101000000010101 = .instr (.drw 0 1 5) := by decide

theorem test_decode_timer_key_random :
    decodeWord 0b1111001100000111 = .instr (.ldVxDt 3) ∧ decodeWord 0b1111000000010101 = .instr (.ldDtVx 0) ∧
    decodeWord 0b1111000100011000 = .instr (.ldStVx 1) ∧ decodeWord 0b1111010100001010 = .instr (.ldVxK 5) ∧
    decodeWord 0b1110000110011110 = .instr (.skp 1) ∧ decodeWord 0b1110000110100001 = .instr (.sknp 1) ∧
    decodeWord 0b1100001100001111 = .instr (.rnd 3 0x0F) := by decide

/-- 2.1: illegal words, each under its family's name. -/
theorem test_decode_illegal :
    decodeWord 0x0123 = .illegal .family0 ∧ decodeWord 0x00E1 = .illegal .family0 ∧
    decodeWord 0x9AB1 = .illegal .family9 ∧ decodeWord 0x8ABF = .illegal .family8 ∧
    decodeWord 0xE19F = .illegal .familyE ∧ decodeWord 0xE0A0 = .illegal .familyE ∧
    decodeWord 0xF000 = .illegal .familyF ∧ decodeWord 0xF175 = .illegal .familyF := by decide

theorem test_decode_bytes_big_endian :
    decode [0x6A, 0xBC, 0x12] = .ok (.ldByte 0xA 0xBC, [0x12]) ∧ decode [0x6A] = .error .truncated := by decide

theorem test_decodeTableWord : decodeTableWord 16 0xD125 = some (.drw 1 2 5) ∧ decodeTableWord 16 0x5121 = none := by
  decide

/-! ### Loads and arithmetic (95_test_vectors.md 2.2) -/

theorem test_ldByte : check (start 0x6A42) (fun t => t.readV 0xA == 0x42 && t.pc == 0x202) = true := by decide

theorem test_ldReg :
    check ((start 0x8120).setV 2 0x99) (fun t => t.readV 1 == 0x99 && t.readV 2 == 0x99) = true := by decide

theorem test_ldI : check (start 0xA123) (fun t => t.i == 0x123) = true := by decide

theorem test_addByte_wraps :
    check ((start 0x7001).setV 0 0xFF) (fun t => t.readV 0 == 0 && t.readV 0xF == 0) = true := by decide

theorem test_addReg_carry :
    check (((start 0x8014).setV 0 0xC8).setV 1 0x64) (fun t => t.readV 0 == 0x2C && t.readV 0xF == 1) = true := by decide

theorem test_addReg_flag_last :
    check (((start 0x8F14).setV 0xF 0x01).setV 1 0x02) (fun t => t.readV 0xF == 0) = true := by decide

theorem test_subReg_borrow :
    check (((start 0x8015).setV 0 3).setV 1 5) (fun t => t.readV 0 == 0xFE && t.readV 0xF == 0) = true := by decide

theorem test_subReg_equal :
    check (((start 0x8015).setV 0 7).setV 1 7) (fun t => t.readV 0 == 0 && t.readV 0xF == 1) = true := by decide

theorem test_subnReg :
    check (((start 0x8017).setV 0 3).setV 1 5) (fun t => t.readV 0 == 2 && t.readV 0xF == 1) = true := by decide

theorem test_subnReg_borrow :
    check ((start 0x8017).setV 0 0xFF) (fun t => t.readV 0 == 1 && t.readV 0xF == 0) = true := by decide

theorem test_addI_no_12_bit_wrap :
    check (((start 0xF01E).setI 0xFFF).setV 0 1) (fun t => t.i == 0x1000 && t.readV 0xF == 0) = true := by decide

theorem test_addI_16_bit_wrap : check (((start 0xF01E).setI 0xFFFF).setV 0 2) (fun t => t.i == 1) = true := by decide

/-! ### Bitwise and shifts (2.3) -/

theorem test_orReg :
    check ((((start 0x8011).setV 0 0xF0).setV 1 0x0F).setV 0xF 0x55) (fun t => t.readV 0 == 0xFF && t.readV 0xF == 0x55)
      = true := by decide

theorem test_andReg : check (((start 0x8012).setV 0 0xF0).setV 1 0x3C) (fun t => t.readV 0 == 0x30) = true := by decide

theorem test_xorReg : check (((start 0x8013).setV 0 0xFF).setV 1 0x0F) (fun t => t.readV 0 == 0xF0) = true := by decide

theorem test_shr_default :
    check (((start 0x8016).setV 0 0x05).setV 1 0xF0) (fun t => t.readV 0 == 2 && t.readV 0xF == 1 && t.readV 1 == 0xF0)
      = true := by decide

theorem test_shr_uses_vy :
    check (((State.setV { start 0x8016 with cfg := { Config.default with shiftUsesVy := true } } 0 0x05).setV 1 0xF0))
      (fun t => t.readV 0 == 0x78 && t.readV 0xF == 0 && t.readV 1 == 0xF0) = true := by decide

theorem test_shl_default :
    check (((start 0x801E).setV 0 0x81).setV 1 0x0F) (fun t => t.readV 0 == 2 && t.readV 0xF == 1) = true := by decide

theorem test_shl_flag_last : check ((start 0x8FFE).setV 0xF 0x40) (fun t => t.readV 0xF == 0) = true := by decide

/-! ### Skips (2.4) -/

theorem test_seByte :
    check ((start 0x3A42).setV 0xA 0x42) (fun t => t.pc == 0x204) = true ∧
    check ((start 0x3A42).setV 0xA 0x43) (fun t => t.pc == 0x202) = true := by decide

theorem test_sneByte :
    check ((start 0x4A42).setV 0xA 0x42) (fun t => t.pc == 0x202) = true ∧
    check ((start 0x4A42).setV 0xA 0x43) (fun t => t.pc == 0x204) = true := by decide

theorem test_seReg :
    check (((start 0x5120).setV 1 7).setV 2 7) (fun t => t.pc == 0x204) = true ∧
    check (((start 0x5120).setV 1 7).setV 2 8) (fun t => t.pc == 0x202) = true := by decide

theorem test_sneReg :
    check (((start 0x9120).setV 1 7).setV 2 8) (fun t => t.pc == 0x204) = true ∧
    check (((start 0x9120).setV 1 7).setV 2 7) (fun t => t.pc == 0x202) = true := by decide

/-! ### Control (2.5) -/

theorem test_jp : check (start 0x1ABC) (fun t => t.pc == 0xABC) = true := by decide

theorem test_jpV0_not_reduced : check ((start 0xBFFF).setV 0 0xFF) (fun t => t.pc == 0x10FE) = true := by decide

theorem test_call :
    check (start 0x2300) (fun t => t.sp == 1 && t.stack[0] == 0x202 && t.pc == 0x300) = true := by decide

theorem test_call_overflow :
    check ((start 0x2300).setStack 16 State.reset.stack)
      (fun t => t.sp == 16 && t.pc == 0x202 && t.result == ⟨false, true, some ⟨.stackOverflow, some 0x2300, 0x200⟩⟩)
      = true := by decide

theorem test_ret_last_in_first_out :
    check ((start 0x00EE).setStack 2 ((State.reset.stack.set 0 0x202).set 1 0x30A)) (fun t => t.sp == 1 && t.pc == 0x30A)
      = true := by decide

theorem test_ret_underflow :
    check (start 0x00EE)
      (fun t => t.sp == 0 && t.pc == 0x202 && t.fault == some ⟨.stackUnderflow, some 0x00EE, 0x200⟩) = true := by decide

/-! ### Memory (2.6) -/

theorem test_storeRegs :
    check (((((start 0xF255).setI 0x300).setV 0 0x11).setV 1 0x22).setV 2 0x33)
      (fun t => t.readBytes 0x300 4 == [0x11, 0x22, 0x33, 0] && t.i == 0x300) = true := by decide

theorem test_storeRegs_out_of_bounds :
    check (((start 0xF155).setI 0xFFF).setV 0 0xAB)
      (fun t => t.readByte 0xFFF == 0 && t.pc == 0x202 && t.fault == some ⟨.memoryOutOfBounds, some 0xF155, 0x200⟩)
      = true := by decide

theorem test_loadRegs_font :
    check (start 0xF265) (fun t => t.readV 0 == 0xF0 && t.readV 1 == 0x90 && t.readV 2 == 0x90 && t.readV 3 == 0)
      = true := by decide

theorem test_loadRegs_inc_i :
    check (State.setI { start 0xF265 with cfg := { Config.default with loadStoreIncI := true } } 0x300)
      (fun t => t.i == 0x303) = true := by decide

theorem test_ldB :
    check (((start 0xF033).setI 0x300).setV 0 254) (fun t => t.readBytes 0x300 3 == [2, 5, 4]) = true := by decide

theorem test_ldB_last_and_beyond :
    check (((start 0xF033).setI 0xFFD).setV 0 128) (fun t => t.readBytes 0xFFD 3 == [1, 2, 8] && t.fault == none) = true ∧
    check (((start 0xF033).setI 0xFFE).setV 0 128) (fun t => t.readBytes 0xFFD 3 == [0, 0, 0] && t.halted) = true := by
  decide

theorem test_ldF_low_nibble : check ((start 0xF029).setV 0 0x1A) (fun t => t.i == 0x32) = true := by decide

theorem test_font_rows : State.reset.readBytes 0x4B 5 = [0xF0, 0x80, 0xF0, 0x80, 0x80] ∧
    State.reset.readBytes 0x32 5 = [0xF0, 0x90, 0xF0, 0x90, 0x90] ∧ State.reset.readByte 0x50 = 0 := by decide

/-! ### Display (2.7) -/

/-- The reset state with the sprite FF 81 at 0x300 and I there. -/
def sprite (w : Nat) (wrap : Bool) : State :=
  ({ start w with cfg := { Config.default with wrap := wrap } }.writeBytes 0x300 [0xFF, 0x81]).setI 0x300

theorem test_drw_blank :
    check (((sprite 0xD012 false).setV 0 8).setV 1 4)
      (fun t => litColumns t 4 == [8, 9, 10, 11, 12, 13, 14, 15] && litColumns t 5 == [8, 15] && t.readV 0xF == 0 &&
        t.dirty && t.displayChanged) = true := by decide

theorem test_drw_wrap_against_clip :
    check ((sprite 0xD011 false).setV 0 60) (fun t => litColumns t 0 == [60, 61, 62, 63]) = true ∧
    check ((sprite 0xD011 true).setV 0 60) (fun t => litColumns t 0 == [0, 1, 2, 3, 60, 61, 62, 63]) = true := by decide

theorem test_drw_collision :
    check ((sprite 0xD011 false).setDisp (flipPixel blankDisplay 0 3 (by decide)) false)
      (fun t => litColumns t 0 == [0, 1, 2, 4, 5, 6, 7] && t.readV 0xF == 1) = true := by decide

theorem test_cls :
    check ((start 0x00E0).setDisp (flipPixel blankDisplay 5 5 (by decide)) false)
      (fun t => litColumns t 5 == [] && t.dirty && t.displayChanged) = true ∧
    check (start 0x00E0) (fun t => litColumns t 0 == [] && !t.dirty && !t.displayChanged) = true := by decide

/-! ### Timers, keys, random (2.8) -/

theorem test_ldVxDt : check ((start 0xF307).setDT 0x2A) (fun t => t.readV 3 == 0x2A && t.dt == 0x2A) = true := by decide

theorem test_ldDtVx : check ((start 0xF015).setV 0 0x3C) (fun t => t.dt == 60 && t.st == 0) = true := by decide

theorem test_ldStVx : check ((start 0xF118).setV 1 5) (fun t => t.st == 5 && t.soundActive) = true := by decide

theorem test_ldVxK_stalls :
    check (start 0xF50A) (fun t => t.pc == 0x200 && t.kwActive && t.kwReg == 5 && t.readV 5 == 0) = true := by decide

/-- One key down: the free choice has one outcome. -/
theorem ldVxK_one_key (s : State) (x k : Nibble) (h : s.keysDown = [k]) :
    exec (.ldVxK x) s = .next (((s.setV x (zextNibble k)).setLatch false s.kwReg).tookDraw) := by
  have hk : pickKey [k] s.draws = k := by simp [pickKey, Nat.mod_one]
  simp only [exec, execLdVxK, h, hk]

theorem test_ldVxK_one_key :
    ∃ t, exec (.ldVxK 5) (State.reset.setKey 7 true) = .next t ∧ t.readV 5 = 0x07 ∧ t.pc = 0x200 ∧ t.kwActive = false :=
  ⟨_, ldVxK_one_key _ 5 7 (by decide), by decide, by decide, by decide⟩

theorem test_skp_low_nibble :
    check (((start 0xE19E).setV 1 0x34).setKey 4 true) (fun t => t.pc == 0x204) = true ∧
    check ((start 0xE19E).setV 1 4) (fun t => t.pc == 0x202) = true := by decide

theorem test_sknp :
    check (((start 0xE1A1).setV 1 4).setKey 4 true) (fun t => t.pc == 0x202) = true ∧
    check ((start 0xE1A1).setV 1 4) (fun t => t.pc == 0x204) = true := by decide

theorem test_rnd_mask_zero :
    ∃ t, exec (.rnd 3 0) (State.reset.setV 3 0xFF) = .next t ∧ t.readV 3 = 0 ∧ t.draws = 1 := by
  refine ⟨_, rfl, ?_, rfl⟩
  have h : ∀ b : Byte, b &&& 0 = 0 := by decide
  rw [h]; decide

/-! ### The step cycle, agents, reset (2.1, 2.8, 2.9) -/

theorem test_empty_rom_decode_error :
    check State.reset (fun t => t.pc == 0x202 && t.result == ⟨false, true, some ⟨.decodeError, some 0, 0x200⟩⟩) = true := by
  decide

theorem test_fetch_past_end :
    check (State.reset.setPc 0x1000)
      (fun t => t.pc == 0x1000 && t.fault == some ⟨.memoryOutOfBounds, none, 0x1000⟩) = true := by decide

theorem test_odd_pc_execute :
    check (({ State.reset with cfg := { Config.default with oddPc := .execute } }.setPc 0x301).writeBytes 0x301 [0x60, 0x07])
      (fun t => t.pc == 0x303 && t.readV 0 == 7) = true := by decide

theorem test_tick :
    check (((start 0x1200).setTurns [.tick]).setDT 2) (fun t => t.dt == 1 && t.st == 0 && t.pc == 0x200) = true ∧
    check (((start 0x1200).setTurns [.tick]).setST 1) (fun t => t.dt == 0 && t.st == 0 && !t.soundActive) = true := by decide

theorem test_set_key :
    check ((start 0x1200).setTurns [.setKey 9 true]) (fun t => t.keyDown 9 && !t.keyDown 8 && t.turns == []) = true := by
  decide

theorem test_construct_loads_rom :
    (match State.construct [0x12, 0x00] Config.default with
      | some s => s.readBytes 0x1FF 4 == [0, 0x12, 0x00, 0] && s.readByte 0 == 0xF0
      | none => false) = true := by decide

/-! ### Witnesses: for each statement with hypotheses a state and operands that meet them, at the bounds of each clause -/

/-- An instruction executed in a state answers a next state that passes the test. -/
def runs (i : Instr) (s : State) (p : State → Bool) : Bool :=
  match exec i s with
  | .next t => p t
  | _ => false

theorem next_of_check {s : State} {p : State → Bool} (h : check s p = true) : ∃ t, step s = .next t ∧ p t = true := by
  unfold check at h
  split at h
  · exact ⟨_, ‹_›, h⟩
  · cases h

theorem next_of_runs {i : Instr} {s : State} {p : State → Bool} (h : runs i s p = true) :
    ∃ t, exec i s = .next t ∧ p t = true := by
  unfold runs at h
  split at h
  · exact ⟨_, ‹_›, h⟩
  · cases h

/-- The sums 255 and 256 in a register that is not VF. -/
theorem witness_AddRegSetsCarry : (0xE : Nibble) ≠ vf ∧
    runs (.addReg 0xE 1) (State.reset.setV 0xE 0xFF) (fun t => t.readV 0xE == 0xFF && t.readV vf == 0) = true ∧
    runs (.addReg 0xE 1) ((State.reset.setV 0xE 0xFF).setV 1 1) (fun t => t.readV 0xE == 0 && t.readV vf == 1) = true := by
  decide

/-- The differences 0 and -1. -/
theorem witness_SubRegSetsNoBorrow : (0xE : Nibble) ≠ vf ∧
    runs (.subReg 0xE 1) State.reset (fun t => t.readV 0xE == 0 && t.readV vf == 1) = true ∧
    runs (.subReg 0xE 1) (State.reset.setV 1 1) (fun t => t.readV 0xE == 0xFF && t.readV vf == 0) = true := by decide

theorem witness_SubnRegSetsNoBorrow : (0xE : Nibble) ≠ vf ∧
    runs (.subnReg 0xE 1) State.reset (fun t => t.readV 0xE == 0 && t.readV vf == 1) = true ∧
    runs (.subnReg 0xE 1) (State.reset.setV 0xE 1) (fun t => t.readV 0xE == 0xFF && t.readV vf == 0) = true := by decide

theorem witness_ShrShiftsRightByOne : (0xE : Nibble) ≠ vf ∧
    runs (.shr 0xE 1) (State.reset.setV 0xE 0xFF) (fun t => t.readV 0xE == 0x7F && t.readV vf == 1) = true := by decide

theorem witness_ShlShiftsLeftByOne : (0xE : Nibble) ≠ vf ∧
    runs (.shl 0xE 1) (State.reset.setV 0xE 0xFF) (fun t => t.readV 0xE == 0xFE && t.readV vf == 1) = true := by decide

/-- A stack of 16 entries and one of 15. -/
theorem witness_CallPushesReturnAddress :
    (State.reset.setStack 16 State.reset.stack).sp.val = 16 ∧
    runs (.call 0x300) (State.reset.setStack 16 State.reset.stack) (fun t => t.halted) = true ∧
    (State.reset.setStack 15 State.reset.stack).sp.val < 16 ∧
    runs (.call 0x300) (State.reset.setStack 15 State.reset.stack)
      (fun t => t.sp == 16 && t.stack[15] == 0x200 && !t.halted) = true := by decide

/-- An empty stack, one of 1 entry, one of 16. -/
theorem witness_RetPopsReturnAddress :
    State.reset.sp.val = 0 ∧ runs .ret State.reset (fun t => t.halted) = true ∧
    0 < (State.reset.setStack 1 (State.reset.stack.set 0 0x30A)).sp.val ∧
    runs .ret (State.reset.setStack 1 (State.reset.stack.set 0 0x30A)) (fun t => t.sp == 0 && t.pc == 0x30A) = true ∧
    runs .ret (State.reset.setStack 16 (State.reset.stack.set 15 0x30A)) (fun t => t.sp == 15 && t.pc == 0x30A) = true := by
  decide

theorem witness_CallThenRetComesBack :
    (State.reset.setStack 15 State.reset.stack).sp.val < 16 ∧
    ∃ t, exec (.call 0x300) (State.reset.setStack 15 State.reset.stack) = .next t ∧ (t.sp == 16) = true :=
  ⟨by decide, next_of_runs (by decide)⟩

/-- Last byte stored at 4095; one byte further. -/
theorem witness_StoreRegsWritesRange :
    runs (.storeRegs 1) ((State.reset.setI 4094).setV 1 7) (fun t => t.readByte 4095 == 7 && !t.halted) = true ∧
    runs (.storeRegs 1) ((State.reset.setI 4095).setV 1 7) (fun t => t.readByte 4095 == 0 && t.halted) = true ∧
    ((State.reset.setI 4094).setV 1 7).i.toNat + (1 : Nibble).toNat ≤ 4095 ∧
    ((State.reset.setI 4095).setV 1 7).i.toNat + (1 : Nibble).toNat > 4095 := by decide

theorem witness_LoadRegsReadsRange :
    runs (.loadRegs 1) ((State.reset.setI 4094).setV 1 7) (fun t => t.readV 1 == 0 && !t.halted) = true ∧
    runs (.loadRegs 1) ((State.reset.setI 4095).setV 1 7) (fun t => t.readV 1 == 7 && t.halted) = true ∧
    ((State.reset.setI 4094).setV 1 7).i.toNat + (1 : Nibble).toNat ≤ 4095 ∧
    ((State.reset.setI 4095).setV 1 7).i.toNat + (1 : Nibble).toNat > 4095 := by decide

theorem witness_LdBStoresDecimalDigits :
    (State.reset.setI 4093).i.toNat + 2 ≤ 4095 ∧ runs (.ldB 0) (State.reset.setI 4093) (fun t => !t.halted) = true ∧
    (State.reset.setI 4094).i.toNat + 2 > 4095 ∧ runs (.ldB 0) (State.reset.setI 4094) (fun t => t.halted) = true := by
  decide

/-- The word lies in the first two and in the last two stored bytes. -/
theorem witness_StoreIsSeenByNextFetch :
    let s := ((State.reset.setI 4093).setV 1 0x12).setV 2 0x34
    s.i.toNat + (2 : Nibble).toNat ≤ 4095 ∧ s.i.toNat ≤ (4093 : Word).toNat ∧
    (4094 : Word).toNat + 1 ≤ s.i.toNat + (2 : Nibble).toNat ∧
    ∃ t, exec (.storeRegs 2) s = .next t ∧
      ((t.setPc 4094).fetch == some 0x1234 && (t.setPc 4093).fetch == some 0x0012) = true :=
  ⟨by decide, by decide, by decide, next_of_runs (by decide)⟩

/-- One row at 4095 and at 4096; no row at all with I at the top of its range. -/
theorem witness_DrwXorsSprite :
    (¬(0 < (1 : Nibble).toNat ∧ (State.reset.setI 4095).i.toNat + (1 : Nibble).toNat - 1 > 4095)) ∧
    runs (.drw 0 0 1) (State.reset.setI 4095) (fun t => !t.halted) = true ∧
    (0 < (1 : Nibble).toNat ∧ (State.reset.setI 4096).i.toNat + (1 : Nibble).toNat - 1 > 4095) ∧
    runs (.drw 0 0 1) (State.reset.setI 4096) (fun t => t.halted) = true ∧
    (¬(0 < (0 : Nibble).toNat ∧ (State.reset.setI 65535).i.toNat + (0 : Nibble).toNat - 1 > 4095)) ∧
    runs (.drw 0 0 0) (State.reset.setI 65535) (fun t => !t.halted && t.readV vf == 0 && !t.displayChanged) = true := by
  decide

theorem witness_DrawingTwiceRestoresDisplay :
    ¬(0 < (5 : Nibble).toNat ∧ State.reset.i.toNat + (5 : Nibble).toNat - 1 > 4095) ∧
    ∃ t, exec (.drw 0 1 5) State.reset = .next t ∧
      (t.readV 0 == State.reset.readV 0 && t.readV 1 == State.reset.readV 1 && litColumns t 0 == [0, 1, 2, 3]) = true :=
  ⟨by decide, next_of_runs (by decide)⟩

theorem witness_LdVxKWaitsForKey :
    (∀ k : Nibble, State.reset.keyDown k = false) ∧ State.reset.keysDown = [] ∧
    (State.reset.setKey 0xF true).keyDown 0xF = true ∧ (State.reset.setKey 0 true).keyDown 0 = true := by decide

/-- V[x] = 0xFF names key 15, V[x] = 0x10 key 0. -/
theorem witness_SkpSkipsIfKeyDown :
    (0xF : Nibble).toNat = ((State.reset.setV 1 0xFF).readV 1).toNat % 16 ∧
    (0 : Nibble).toNat = ((State.reset.setV 1 0x10).readV 1).toNat % 16 ∧
    runs (.skp 1) ((State.reset.setV 1 0xFF).setKey 0xF true) (fun t => t.pc == 0x202) = true := by decide

theorem witness_SknpSkipsIfKeyUp :
    (0xF : Nibble).toNat = ((State.reset.setV 1 0xFF).readV 1).toNat % 16 ∧
    (0 : Nibble).toNat = ((State.reset.setV 1 0x10).readV 1).toNat % 16 ∧
    runs (.sknp 1) ((State.reset.setV 1 0x10).setKey 0xF true) (fun t => t.pc == 0x202) = true := by decide

/-- The last pc at which a word fits, 4094, and an odd pc with ODD_PC = execute. -/
def atEnd (p : Word) : State :=
  { State.reset.setPc p with cfg := { Config.default with oddPc := .execute }, mem := [(4093, 0x60), (4094, 0x61)] }

theorem witness_StepRunsDecodedInstruction :
    CoreReady (atEnd 4094) ∧ (atEnd 4094).pc.toNat % 2 = 0 ∧ (atEnd 4094).pc.toNat ≤ 4094 ∧
    decode [(atEnd 4094).readByte 4094, (atEnd 4094).readByte 4095] = .ok (.ldByte 1 0, []) ∧
    CoreReady (atEnd 4093) ∧ (atEnd 4093).cfg.oddPc = .execute ∧
    decode [(atEnd 4093).readByte 4093, (atEnd 4093).readByte 4094] = .ok (.ldByte 0 0x61, []) := by
  unfold CoreReady; decide

theorem witness_FetchOutOfBoundsRaises :
    CoreReady (atEnd 4095) ∧ (atEnd 4095).cfg.oddPc = .execute ∧ 4095 ≤ (atEnd 4095).pc.toNat ∧
    CoreReady (State.reset.setPc 4096) ∧ (State.reset.setPc 4096).pc.toNat % 2 = 0 ∧
    4095 ≤ (State.reset.setPc 4096).pc.toNat := by unfold CoreReady; decide

theorem witness_IllegalWordRaisesDecodeError :
    CoreReady (start 0x5121) ∧ (start 0x5121).pc.toNat % 2 = 0 ∧ (start 0x5121).fetch = some 0x5121 ∧
    decodeWord 0x5121 = .illegal .family5 := by unfold CoreReady; decide

theorem witness_OddPcIsRefused :
    CoreReady (State.reset.setPc 0x201) ∧ (State.reset.setPc 0x201).pc.toNat % 2 = 1 ∧
    (State.reset.setPc 0x201).cfg.oddPc = .refuse := by unfold CoreReady; decide

/-- The reset state after a return from an empty stack. -/
def fatalState : State := State.reset.advance.raise .stackUnderflow 0x00EE

/-- The core's turn in the fatal state, at an odd pc too (where a step of a running machine is refused), and a tick's. -/
theorem witness_FatalStateIsTerminal :
    fatalState.fatal ∧ fatalState.stopped = false ∧ fatalState.nextTurn = .core ∧
    (fatalState.setPc 0x201).fatal ∧ (fatalState.setPc 0x201).oddRefused = true ∧
    (∃ t, step (fatalState.setPc 0x201) = .next t ∧
      (t.pc == 0x201 && t.result == ⟨false, true, some ⟨.stackUnderflow, some 0x00EE, 0x200⟩⟩) = true) ∧
    ∃ t, step ((fatalState.setDT 2).setTurns [.tick]) = .next t ∧ (t.dt == 1 && t.halted) = true :=
  ⟨by unfold State.fatal; decide, by decide, by decide, by unfold State.fatal; decide, by decide,
    next_of_check (by decide), next_of_check (by decide)⟩

/-- One instruction that raises and one that does not. -/
theorem witness_InstructionsRaiseExactlyWhen :
    State.reset.fault = none ∧ RaisesAt .ret State.reset ∧ ¬RaisesAt .cls State.reset ∧
    (∃ t, exec .ret State.reset = .next t ∧ t.halted = true) ∧
    ∃ t, exec .cls State.reset = .next t ∧ (!t.halted) = true :=
  ⟨rfl, rfl, id, next_of_runs (by decide), next_of_runs (by decide)⟩

/-- Every raising kind of instruction at the first value at which it raises. -/
theorem witness_RaisingInstructionIsPrecise :
    RaisesAt (.call 0x300) (State.reset.setStack 16 State.reset.stack) ∧ RaisesAt .ret State.reset ∧
    RaisesAt (.drw 0 0 1) (State.reset.setI 4096) ∧ RaisesAt (.ldB 0) (State.reset.setI 4094) ∧
    RaisesAt (.storeRegs 0xF) (State.reset.setI 4081) ∧ RaisesAt (.loadRegs 0xF) (State.reset.setI 4081) ∧
    ∃ t, exec (.storeRegs 0xF) (State.reset.setI 4081) = .next t ∧ t.halted = true := by
  refine ⟨?_, ?_, ?_, ?_, ?_, ?_, next_of_runs (by decide)⟩ <;> (unfold RaisesAt; decide)

/-- Timers at 1 and at 0. -/
theorem witness_TickDecrementsTimers :
    let s := (State.reset.setDT 1).setTurns [.tick]
    s.stopped = false ∧ s.nextTurn = .tick ∧ check s (fun t => t.dt == 0 && t.st == 0) = true := by decide

/-- A core that sits on a self-jump with V0 = 1 and both timers at 1 until a tick at transition 1. -/
def parked (n : Nat) : State :=
  let b : Byte := if n < 2 then 1 else 0
  ((((start 0x1200).setV 0 1).setTurns []).setDT b).setST b

/-- Core and Timer Thread in turn. -/
def inTurn (n : Nat) : Turn := if n % 2 = 0 then .core else .tick

theorem parked_step (s : State) (h : s.displayChanged = false) (hr : CoreReady (s.setTurns [.core]))
    (ho : s.oddRefused = false) (hf : s.fetch = some 0x1200) (hp : s.pc = 0x200) (ht : s.turns = []) :
    step (s.setTurns [.core]) = .next s := by
  have hd : decodeWord 0x1200 = .instr (.jp 0x200) := by decide
  rw [step_fetched _ 0x1200 hr ho hf]
  simp only [runWord, hd, exec, execJp]
  cases s
  simp_all [State.begun, State.advance, State.setPc, State.setTurns, State.setChanged, zextAddr]

theorem parked_execution : Execution inTurn parked := by
  intro N n _
  by_cases hn : n % 2 = 0
  · have e : parked (n + 1) = parked n := by
      have : (n + 1 < 2) = (n < 2) := by apply propext; omega
      simp only [parked, this]
    rw [inTurn, if_pos hn, e]
    by_cases hb : n < 2 <;> simp only [parked, hb, if_true, if_false] <;>
      exact parked_step _ (by decide) (by unfold CoreReady; decide) (by decide) (by decide) (by decide) (by decide)
  · rw [inTurn, if_neg hn]
    by_cases hb : n < 2
    · have : n = 1 := by omega
      subst this; rfl
    · simp only [parked, hb, show ¬ n + 1 < 2 by omega, if_false]; rfl

theorem parked_executes_no_write (n : Nat) :
    ∀ y : Nibble, ¬Executes (parked n) (.ldDtVx y) ∧ ¬Executes (parked n) (.ldStVx y) := by
  have hf : (parked n).fetch = some 0x1200 := by
    by_cases hb : n < 2 <;> simp only [parked, hb, if_true, if_false] <;> decide
  have hd : decodeWord 0x1200 = .instr (.jp 0x200) := by decide
  intro y
  constructor <;> rintro ⟨-, -, op, h, h'⟩ <;> rw [hf] at h <;> cases h <;> rw [hd] at h' <;> cases h'

/-- Fewer ticks than the value and more; and the execution above after a write of 1, with no tick and with one. -/
theorem witness_TimerHoldsValueMinusTicks :
    (State.reset.setV 0 2).stopped = false ∧
    (∃ t, exec (.ldDtVx 0) (State.reset.setV 0 2) = .next t ∧ (t.dt == 2) = true) ∧
    (∃ t, exec (.ldStVx 0) (State.reset.setV 0 2) = .next t ∧ (t.st == 2) = true) ∧
    (2 : Byte).toNat - 1 = 1 ∧ (2 : Byte).toNat - 3 = 0 ∧
    ExecutionTo inTurn parked 2 ∧ ticksBefore inTurn 1 = 0 ∧ ticksBefore inTurn 2 = 1 ∧
    exec (.ldDtVx 0) (parked 0) = .next (parked 0) ∧ exec (.ldStVx 0) (parked 0) = .next (parked 0) ∧
    (∀ n : Nat, ∀ y : Nibble, ¬Executes (parked n) (.ldDtVx y) ∧ ¬Executes (parked n) (.ldStVx y)) :=
  ⟨rfl, next_of_runs (by decide), next_of_runs (by decide), by decide, by decide, parked_execution 2, by decide,
    by decide, rfl, rfl, parked_executes_no_write⟩

/-- A weakly fair execution without end in which nothing writes a timer; its timers are 1 and then 0. -/
theorem witness_FairExecutionsRunTimersOut :
    Execution inTurn parked ∧ WeaklyFair inTurn ∧ (parked 1).dt = 1 ∧ (parked 2).dt = 0 ∧
    (∀ m : Nat, ∀ y : Nibble, ¬Executes (parked m) (.ldDtVx y) ∧ ¬Executes (parked m) (.ldStVx y)) :=
  ⟨parked_execution, fun n => ⟨2 * n + 1, by omega, by unfold inTurn; rw [if_neg (by omega)]⟩, rfl, rfl,
    parked_executes_no_write⟩

/-- Index 15 and index 16. -/
theorem witness_SetKeyWritesOneFlag :
    (State.reset.setTurns [.setKey 15 true]).stopped = false ∧
    (State.reset.setTurns [.setKey 15 true]).nextTurn = .setKey 15 true ∧
    check (State.reset.setTurns [.setKey 15 true]) (fun t => t.keyDown 0xF && !t.keyDown 0xE) = true ∧
    (State.reset.setTurns [.setKey 16 true]).nextTurn = .setKey 16 true ∧
    step (State.reset.setTurns [.setKey 16 true]) = .refused (.keyIndexOutOfRange 16) :=
  ⟨rfl, rfl, by decide, rfl, rfl⟩

theorem witness_PresentAndStop :
    ((State.reset.setDirty true).setTurns [.present]).stopped = false ∧
    ((State.reset.setDirty true).setTurns [.present]).nextTurn = .present ∧
    check ((State.reset.setDirty true).setTurns [.present]) (fun t => !t.dirty) = true ∧
    (State.reset.setTurns [.stop, .tick]).nextTurn = .stop ∧
    check (State.reset.setTurns [.stop, .tick]) (fun t => t.stopped && t.turns == [.tick]) = true := by decide

theorem witness_SelfJumpChangesNothing :
    CoreReady (start 0x1200) ∧ (start 0x1200).pc.toNat % 2 = 0 ∧ ParkedAt (start 0x1200) 0x200 := by
  unfold CoreReady ParkedAt; decide

/-- The longest ROM that fits and one byte more. -/
theorem witness_ConstructionLoadsRom :
    (∃ rom : List Byte, rom.length ≤ 3584 ∧ (State.construct rom Config.default).isSome = true ∧ rom.length = 3584) ∧
    ∃ rom : List Byte, 3584 < rom.length ∧ State.construct rom Config.default = none ∧ rom.length = 3585 := by
  refine ⟨⟨List.replicate 3584 0, ?_, ?_, List.length_replicate⟩, List.replicate 3585 0, ?_, ?_, List.length_replicate⟩
  · rw [List.length_replicate]
  · rw [State.construct, List.length_replicate, if_neg (by decide)]; rfl
  · rw [List.length_replicate]; decide
  · rw [State.construct, List.length_replicate, if_pos (by decide)]

theorem witness_StepKeepsMemoryCanonical :
    MemoryCanonical ((start 0xF033).setI 0x300) ∧
    ∃ t, step ((start 0xF033).setI 0x300) = .next t ∧ (t.readByte 0x200 == 0xF0) = true :=
  ⟨by unfold MemoryCanonical; decide, next_of_check (by decide)⟩

/-- pc and a stack entry at their bounds: 4350 (a step raises there) and 4096 (a RET goes there). -/
theorem witness_StepKeepsPcInRange :
    PcInRange (State.reset.setPc 4350) ∧ (∃ t, step (State.reset.setPc 4350) = .next t ∧ t.halted = true) ∧
    PcInRange ((start 0x00EE).setStack 1 (State.reset.stack.set 0 4096)) ∧
    ∃ t, step ((start 0x00EE).setStack 1 (State.reset.stack.set 0 4096)) = .next t ∧ (t.pc == 4096) = true :=
  ⟨by unfold PcInRange; decide, next_of_check (by decide), by unfold PcInRange; decide, next_of_check (by decide)⟩

/-- A `B200` with V0 = 2, on a stack of one entry. -/
theorem witness_ValidProgramsKeepPcEven :
    let s := ((start 0xB200).setV 0 2).setStack 1 (State.reset.stack.set 0 0x300)
    PcEven s ∧ (∀ op i, s.fetch = some op → decodeWord op = .instr i → InContract i s) ∧
    ∃ t, step s = .next t ∧ (t.pc == 0x202) = true := by
  refine ⟨by unfold PcEven; decide, ?_, next_of_check (by decide)⟩
  intro op i hf hd
  rw [show State.fetch _ = some 0xB200 by decide] at hf
  cases hf
  rw [show decodeWord _ = .instr (.jpV0 0x200) by decide] at hd
  cases hd
  refine ⟨by decide, ?_⟩
  intro nnn h
  cases h
  decide

/-- A step of the core, of the timer, of the host. -/
theorem witness_StepKeepsConfiguration :
    (∃ t, step (start 0x6A42) = .next t ∧ (t.readV 0xA == 0x42) = true) ∧
    (∃ t, step ((start 0x6A42).setTurns [.tick]) = .next t ∧ (t.pc == 0x200) = true) ∧
    ∃ t, step ((start 0x6A42).setTurns [.setKey 1 true]) = .next t ∧ t.keyDown 1 = true :=
  ⟨next_of_check (by decide), next_of_check (by decide), next_of_check (by decide)⟩

theorem witness_InstructionsWriteOnlyTheirParts :
    (∃ t, exec (.loadRegs 1) State.reset = .next t ∧ (t.readV 1 == 0x90) = true) ∧
    ¬mayWriteReg (.loadRegs 1) 2 ∧ ¬mayWriteReg (.drw 0 0 1) 0xE :=
  ⟨next_of_runs (by decide), by unfold mayWriteReg; decide, by unfold mayWriteReg; decide⟩

theorem witness_EncodeOfDecodeIsIdentity :
    decodeWord 0x00EE = .instr .ret ∧ decodeWord 0xFFFF = .illegal .familyF ∧
    decodeWord 0xFF65 = .instr (.loadRegs 0xF) := by decide

/-- An illegal word on each side of the family-8 bound and of the family-0 words. -/
theorem witness_IllegalWordsAreTheListedOnes :
    (0x8#4 ++ 0x0#4 ++ 0x0#4 ++ 0x8#4 : Word) = 0x8008 ∧ decodeWord 0x8008 = .illegal .family8 ∧
    decodeWord 0x8007 = .instr (.subnReg 0 0) ∧ decodeWord 0x800E = .instr (.shl 0 0) ∧
    decodeWord 0x800F = .illegal .family8 ∧ decodeWord 0x00EF = .illegal .family0 := by decide

end Sys2Proof.Tests
end

section
/-! Proofs of the statements about the state (spec/10_state.md). First what an instruction may do to the state,
said once: its frame, the registers it writes, and what it does to pc and to the stack. The invariants of the whole
machine follow from these. -/

namespace Sys2Proof.Machine

/-! ### The outcomes of an instruction -/

/-- A checked instruction either raises, under its condition, or has its effect. -/
theorem raise_or_effect {c : Prop} [Decidable c] {s t u : State} {k : FatalKind} {op : Word}
    (h : (if c then .next (s.raise k op) else .next u : Host.Outcome State Fault Refusal) = .next t) :
    c ∧ t = s.raise k op ∨ ¬c ∧ t = u := by
  split at h <;> cases h
  · exact .inl ⟨‹c›, rfl⟩
  · exact .inr ⟨‹¬c›, rfl⟩

/-- Fx0A stalls or writes some byte to V[x] (R178). -/
theorem execLdVxK_next {x : Nibble} {s t : State} (h : execLdVxK x s = .next t) :
    t = s.rewind.setLatch true x ∨ ∃ b, t = ((s.setV x b).setLatch false s.kwReg).tookDraw := by
  unfold execLdVxK at h
  split at h <;> cases h
  · exact .inl rfl
  · exact .inr ⟨_, rfl⟩

/-! ### What an instruction leaves unchanged (R21, R36) -/

theorem frame_raise (s : State) (k : FatalKind) (op : Word) :
    FrameBut [.fault, .displayChanged] s (s.raise k op) :=
  (raised_raise s k op).2.2

/-- Two changes in a row change at most what either changes, each with its own frame. -/
theorem FrameBut.append {ps qs : List Part} {s t u : State} (h : FrameBut ps s t) (k : FrameBut qs t u) :
    FrameBut (ps ++ qs) s u :=
  (h.mono fun _ => List.mem_append_left qs).trans (k.mono fun _ => List.mem_append_right ps)

/-- The frame of a checked instruction: beside its effect it may write the record and the result (R205). -/
theorem frame_raise_or_effect {ps : List Part} {c : Prop} [Decidable c] {s t u : State} {k : FatalKind} {op : Word}
    (h : (if c then .next (s.raise k op) else .next u : Host.Outcome State Fault Refusal) = .next t)
    (hu : FrameBut ps s u) : FrameBut (ps ++ [.fault, .displayChanged]) s t := by
  obtain ⟨-, rfl⟩ | ⟨-, rfl⟩ := raise_or_effect h
  · exact (frame_raise s k op).mono fun _ => List.mem_append_right ps
  · exact hu.mono fun _ => List.mem_append_left _

/-- An instruction changes no part of the state but those listed for it. -/
theorem exec_frame {i : Instr} {s t : State} (h : exec i s = .next t) : FrameBut (mayWrite i) s t := by
  cases i
  case cls => cases h; exact frame_setDisp _ _ _
  case jp | jpV0 => cases h; exact frame_setPc _ _
  case seByte | sneByte | seReg | sneReg | skp | sknp => cases h; exact frame_skipIf _ _
  case ldByte | addByte | ldReg | orReg | andReg | xorReg | ldVxDt => cases h; exact frame_setV _ _ _
  case addReg | subReg | subnReg | shr | shl => cases h; exact frame_setResult _ _ _ _
  case ldI | addI | ldF => cases h; exact frame_setI _ _
  case ldDtVx => cases h; exact frame_setDT _ _
  case ldStVx => cases h; exact frame_setST _ _
  case rnd => cases h; exact (frame_setV _ _ _).append (frame_tookDraw _)
  case ldVxK =>
    obtain rfl | ⟨b, rfl⟩ := execLdVxK_next h
    · exact ((frame_setPc _ _).append (frame_setLatch _ _ _)).mono (by simp [mayWrite])
    · exact (((frame_setV _ _ _).append (frame_setLatch _ _ _)).append (frame_tookDraw _)).mono (by simp [mayWrite])
  case ret => exact (frame_raise_or_effect h ((frame_drop _).append (frame_setPc _ _))).mono (by simp [mayWrite])
  case call => exact (frame_raise_or_effect h ((frame_push _ _).append (frame_setPc _ _))).mono (by simp [mayWrite])
  case drw =>
    exact (frame_raise_or_effect h ((frame_setDisp _ _ _).append (frame_setFlag _ _))).mono (by simp [mayWrite])
  case ldB => exact (frame_raise_or_effect h (frame_writeBytes _ _ _)).mono (by simp [mayWrite])
  case storeRegs =>
    exact (frame_raise_or_effect h ((frame_writeBytes _ _ _).append (frame_bumpI _ _))).mono (by simp [mayWrite])
  case loadRegs =>
    exact (frame_raise_or_effect h ((frame_setRegs _ _).append (frame_bumpI _ _))).mono (by simp [mayWrite])

/-- Fx65 keeps every register above x. -/
theorem readV_fillRegs_above (s : State) (x r : Nibble) (a : Nat) (h : ¬r.toNat ≤ x.toNat) :
    (s.setRegs (fillRegs s.v 0 (s.readBytes a (x.toNat + 1)))).readV r = s.readV r := by
  rw [readV_setRegs, getElem_fillRegs, State.readBytes, length_readBytes, if_neg (by omega), State.readV]

/-- An instruction changes no general register but those listed for it (R21). -/
theorem exec_readV {i : Instr} {s t : State} (h : exec i s = .next t) (r : Nibble) (hr : ¬mayWriteReg i r) :
    t.readV r = s.readV r := by
  cases i
  case ldByte | addByte | ldReg | orReg | andReg | xorReg | ldVxDt | rnd =>
    cases h; simp [show ¬r = _ from hr]
  case addReg | subReg | subnReg | shr | shl =>
    cases h
    obtain ⟨hx, hvf⟩ := not_or.1 hr
    rw [readV_setResult, if_neg hvf, if_neg hx]
  case ldVxK =>
    obtain rfl | ⟨b, rfl⟩ := execLdVxK_next h
    · rfl
    · simp [show ¬r = _ from hr]
  case drw =>
    obtain ⟨-, rfl⟩ | ⟨-, rfl⟩ := raise_or_effect h
    · rfl
    · exact (readV_setV _ _ _ _).trans (if_neg hr)
  case loadRegs x =>
    obtain ⟨-, rfl⟩ | ⟨-, rfl⟩ := raise_or_effect h
    · rfl
    · rw [frame_bumpI _ x .v (by simp) r]
      exact readV_fillRegs_above s x r _ hr
  all_goals exact exec_frame h .v (by simp [mayWrite]) r

/-- Settles O55: the frame and the registers of each instruction, assembled. -/
theorem instructionsWriteOnlyTheirParts : Obligations.InstructionsWriteOnlyTheirParts :=
  fun _ _ _ h => ⟨exec_frame h, exec_readV h⟩

/-! ### The configuration (R35, R232) -/

theorem cfg_notMem_mayWrite (i : Instr) : Part.cfg ∉ mayWrite i := by cases i <;> simp [mayWrite]

/-- Having a given configuration is kept by everything a step is made of. -/
theorem cfg_keptByParts (c : Config) : KeptByParts (fun s => s.cfg = c) where
  turns _ _ hc := hc
  changed _ _ hc := hc
  fatal _ _ _ _ hc := hc
  illegal _ _ hc _ := hc
  instr _ _ _ i hc _ _ he := Eq.trans (exec_frame he .cfg (cfg_notMem_mayWrite i)) hc
  tick _ hc := hc
  key _ _ _ hc := hc
  dirty _ _ hc := hc
  stopped _ _ hc := hc

/-- Settles O54: no instruction lists the configuration among the parts it writes. -/
theorem stepKeepsConfiguration : Obligations.StepKeepsConfiguration :=
  fun s _ h => (cfg_keptByParts s.cfg).step rfl h

/-! ### Where an instruction can leave pc and the stack -/

/-- The target of a jump or a call (R140, R141, R142). -/
def jumpTarget (s : State) : Instr → Option Word
  | .jp nnn | .call nnn => some (zextAddr nnn)
  | .jpV0 nnn => some (zextAddr nnn + zextByte (s.readV 0))
  | _ => none

/-- pc after an instruction: kept, one skip on, one rewind back, the newest return address, or the jump's target. -/
theorem exec_pc {i : Instr} {s t : State} (h : exec i s = .next t) :
    t.pc = s.pc ∨ t.pc = s.pc + 2 ∨ t.pc = s.pc - 2 ∨ (s.sp.val ≠ 0 ∧ t.pc = s.top) ∨
      jumpTarget s i = some t.pc := by
  cases i
  case jp | jpV0 => cases h; simp [jumpTarget]
  case seByte | sneByte | seReg | sneReg | skp | sknp =>
    cases h
    rw [skipIf_pc]
    split <;> simp
  case ldVxK => obtain rfl | ⟨b, rfl⟩ := execLdVxK_next h <;> simp
  case ret =>
    obtain ⟨-, rfl⟩ | ⟨hsp, rfl⟩ := raise_or_effect h
    · exact .inl rfl
    · simp [hsp]
  case call =>
    obtain ⟨-, rfl⟩ | ⟨-, rfl⟩ := raise_or_effect h
    · exact .inl rfl
    · simp [jumpTarget]
  all_goals exact .inl (exec_frame h .pc (by simp [mayWrite]))

/-- A stack entry after an instruction: kept, and valid only if it was, or the pc that a call pushed. -/
theorem exec_stack {i : Instr} {s t : State} (h : exec i s = .next t) (j : Nat) (hj : j < 16) :
    (t.stack[j] = s.stack[j] ∧ (j < t.sp.val → j < s.sp.val)) ∨ t.stack[j] = s.pc := by
  cases i
  case ret =>
    obtain ⟨-, rfl⟩ | ⟨-, rfl⟩ := raise_or_effect h
    · exact .inl ⟨rfl, id⟩
    · exact .inl ⟨rfl, fun hlt => Nat.lt_of_lt_of_le hlt (Nat.sub_le _ _)⟩
  case call =>
    obtain ⟨-, rfl⟩ | ⟨hfull, rfl⟩ := raise_or_effect h
    · exact .inl ⟨rfl, id⟩
    · have hsp : s.sp.val < 16 := by omega
      simp only [setPc_stack, setPc_sp, push_sp s _ hsp, push_stack s _ hsp j hj]
      split
      · exact .inr rfl
      · exact .inl ⟨rfl, by omega⟩
  all_goals
    obtain ⟨hsp, hstack⟩ := exec_frame h .stack (by simp [mayWrite])
    exact .inl ⟨hstack j hj, fun hlt => hsp ▸ hlt⟩

/-- A jump's target is at most 4095, and at most 4350 with V0 added (R28). -/
theorem jumpTarget_le {i : Instr} {s : State} {w : Word} (h : jumpTarget s i = some w) : w.toNat ≤ 4350 := by
  cases i <;> cases h
  case jp nnn | call nnn => rw [toNat_zextAddr]; omega
  case jpV0 nnn => rw [BitVec.toNat_add, toNat_zextAddr, toNat_zextByte]; omega

/-- Under the program's contract a jump's target is even (R252 item 1). -/
theorem jumpTarget_even {i : Instr} {s : State} {w : Word} (hc : InContract i s) (h : jumpTarget s i = some w) :
    w.toNat % 2 = 0 := by
  obtain ⟨hconst, hV0⟩ := hc
  cases i <;> cases h
  case jp | call => simpa [Instr.wellFormed, Instr.constTarget] using hconst
  case jpV0 nnn =>
    have := hV0 nnn rfl
    rw [BitVec.toNat_add, toNat_zextAddr, toNat_zextByte]
    omega

/-! ### pc and the stack stay in range (R28) -/

/-- A fetch succeeds only up to 4094, so the advance of pc does not wrap (R56, R75). -/
theorem advance_pc_of_fetch {s : State} {op : Word} (hf : s.fetch = some op) :
    s.advance.pc.toNat = s.pc.toNat + 2 ∧ s.pc.toNat ≤ 4094 := by
  have hlt : ¬4095 ≤ s.pc.toNat := fun hle => by simp [(fetch_eq_none_iff s).2 hle] at hf
  refine ⟨?_, by omega⟩
  rw [advance_eq, setPc_pc]
  bv_omega

/-- An instruction executed at an advanced pc of at most 4096 keeps pc and the stack in range. -/
theorem exec_pcInRange {i : Instr} {s t : State} (hlo : 2 ≤ s.pc.toNat) (hhi : s.pc.toNat ≤ 4096)
    (hs : PcInRange s) (h : exec i s = .next t) : PcInRange t := by
  obtain ⟨-, hstack⟩ := hs
  refine ⟨?_, fun j hj => ?_⟩
  · obtain e | e | e | ⟨-, e⟩ | e := exec_pc h
    · rw [e]; omega
    · rw [e]; bv_omega
    · rw [e]; bv_omega
    · rw [e]; exact (hstack _ _).trans (by decide)
    · exact jumpTarget_le e
  · obtain ⟨e, -⟩ | e := exec_stack h j hj
    · rw [e]; exact hstack j hj
    · rw [e]; exact hhi

theorem pcInRange_advance {s : State} {op : Word} (hs : PcInRange s) (hf : s.fetch = some op) :
    PcInRange s.advance := by
  obtain ⟨hpc, hle⟩ := advance_pc_of_fetch hf
  exact ⟨by omega, hs.2⟩

/-- Only the advance and the instructions touch pc or the stack. -/
theorem pcInRange_keptByParts : KeptByParts PcInRange where
  turns _ _ hs := hs
  changed _ _ hs := hs
  fatal _ _ _ _ hs := hs
  illegal _ _ hs hf := pcInRange_advance hs hf
  instr s _ _ _ hs hf _ he := by
    obtain ⟨hpc, hle⟩ := advance_pc_of_fetch hf
    exact exec_pcInRange (by omega) (by omega) (pcInRange_advance hs hf) he
  tick _ hs := hs
  key _ _ _ hs := hs
  dirty _ _ hs := hs
  stopped _ _ hs := hs

/-- Settles O52: an instruction runs only where the fetch succeeded, so at an advanced pc of 2 to 4096, from where
no case of `exec_pc` passes 4350 and no pushed pc passes 4096. -/
theorem stepKeepsPcInRange : Obligations.StepKeepsPcInRange :=
  fun _ _ hs h => pcInRange_keptByParts.step hs h

/-! ### pc and the return addresses stay even (S1, R27) -/

/-- Two on from an even word is an even word, at the wrap too. -/
theorem even_add_two {w : Word} (h : w.toNat % 2 = 0) : (w + 2).toNat % 2 = 0 := by
  bv_omega

theorem even_sub_two {w : Word} (h : w.toNat % 2 = 0) : (w - 2).toNat % 2 = 0 := by
  bv_omega

theorem pcEven_advance {s : State} (hs : PcEven s) : PcEven s.advance :=
  ⟨even_add_two hs.1, hs.2⟩

/-- An instruction whose jump or call target is even keeps pc and the valid return addresses even. -/
theorem exec_pcEven {i : Instr} {s t : State} (hs : PcEven s) (hc : InContract i s) (h : exec i s = .next t) :
    PcEven t := by
  obtain ⟨hpc, hstack⟩ := hs
  refine ⟨?_, fun j hj hvalid => ?_⟩
  · obtain e | e | e | ⟨hsp, e⟩ | e := exec_pc h
    · rw [e]; exact hpc
    · rw [e]; exact even_add_two hpc
    · rw [e]; exact even_sub_two hpc
    · rw [e]; exact hstack _ _ (by omega)
    · exact jumpTarget_even hc e
  · obtain ⟨e, hkept⟩ | e := exec_stack h j hj
    · rw [e]; exact hstack j hj (hkept hvalid)
    · rw [e]; exact hpc

/-- Settles O53. The contract speaks of the one word the core fetches, so the invariant is followed through the
step's cases: only the core's advance and the fetched instruction touch pc or the stack. -/
theorem validProgramsKeepPcEven : Obligations.ValidProgramsKeepPcEven := by
  intro s t hs hc h
  obtain ⟨-, h⟩ := step_next h
  cases hn : s.nextTurn <;> rw [hn] at h
  case core =>
    have hadv : PcEven ((s.setTurns s.turns.tail).setChanged false).advance := pcEven_advance (s := s) hs
    obtain ⟨-, rfl⟩ | ⟨-, -, rfl⟩ | ⟨op, _, -, -, -, -, rfl⟩ | ⟨op, i, -, -, hf, hd, he⟩ := coreStep_next h
    · exact hs
    · exact hs
    · exact hadv
    · exact exec_pcEven hadv (hc op i hf hd) he
  case setKey =>
    simp only [takeTurn, actSetKey] at h
    split at h <;> cases h
    exact hs
  case tick | present | stop => cases h; exact hs

/-! ### The machine right after construction (R38, R241) -/

@[simp] theorem readV_reset (r : Nibble) : State.reset.readV r = 0 := by simp [State.readV, State.reset]

theorem stack_reset (j : Nat) (h : j < 16) : State.reset.stack[j] = 0 := by simp [State.reset]

/-- Memory that nothing has written: the font from FONT_BASE = 0 on, 0 beyond it (R52, R54). -/
theorem readByte_reset (a : Nat) : State.reset.readByte a = font.getD a 0 := by
  show unlisted 0 a = _
  simp [unlisted]

theorem pixelAt_reset (y x : Nat) (h : y < 32 ∧ x < 64) : pixelAt State.reset.disp y x h = false := by
  simp [pixelAt, State.reset]

theorem keyDown_reset (k : Nibble) : State.reset.keyDown k = false := by simp [State.keyDown, State.reset]

/-- Settles O48: reads of the reset state by their lemmas, every other field by its definition. -/
theorem resetState : Obligations.ResetState :=
  ⟨readV_reset, rfl, rfl, rfl, stack_reset, rfl, rfl, readByte_reset, rfl, pixelAt_reset, rfl, keyDown_reset, rfl, rfl,
    rfl, rfl, rfl, rfl⟩

/-- Settles O50: pc is 512, every stack entry 0 and no cell of memory is listed. -/
theorem resetMeetsInvariants : Obligations.ResetMeetsInvariants := by
  refine ⟨wf_nil _, ⟨by decide, fun j hj => ?_⟩, rfl, fun j hj _ => ?_⟩
  · rw [stack_reset j hj]; decide
  · rw [stack_reset j hj]; rfl

end Sys2Proof.Machine
end

section
/-! Proofs of the statements about memory (spec/20_memory.md). First what an instruction may do to memory, said once;
the canonical form follows from it. Then the fetch: of stored registers, beyond the last byte, and at an odd pc. -/

namespace Sys2Proof.Machine

/-! ### What an instruction may do to memory (R50, R57, R58) -/

@[simp] theorem skipIf_mem (s : State) (c : Bool) : (s.skipIf c).mem = s.mem := by cases c <;> rfl

@[simp] theorem push_mem (s : State) (w : Word) : (s.push w).mem = s.mem := by unfold State.push; split <;> rfl

@[simp] theorem bumpI_mem (s : State) (x : Nibble) : (s.bumpI x).mem = s.mem := by unfold State.bumpI; split <;> rfl

/-- A range of bytes at I that passes the check of R57 ends inside memory. -/
theorem atI_add_le_memSize {s : State} {n : Nat} (hn : 0 < n) (h : ¬s.outOfBounds n = true) :
    s.atI 0 + n ≤ memSize := by
  have hlast : ¬(0 < n ∧ s.i.toNat + n - 1 > 4095) := mt (outOfBounds_iff s n).2 h
  show s.i.toNat + n ≤ 4096
  omega

/-- Memory after an instruction: the same list, or one run of writes at I that ends inside memory (Fx33, Fx55). -/
theorem exec_mem {i : Instr} {s t : State} (h : exec i s = .next t) :
    t.mem = s.mem ∨ ∃ bs, s.atI 0 + bs.length ≤ memSize ∧ t.mem = (s.writeBytes (s.atI 0) bs).mem := by
  cases i
  case seByte | sneByte | seReg | sneReg | skp | sknp => cases h; exact .inl (skipIf_mem _ _)
  case ret | drw => obtain ⟨-, rfl⟩ | ⟨-, rfl⟩ := raise_or_effect h <;> exact .inl rfl
  case call =>
    obtain ⟨-, rfl⟩ | ⟨-, rfl⟩ := raise_or_effect h
    · exact .inl rfl
    · exact .inl (push_mem _ _)
  case ldVxK => obtain rfl | ⟨b, rfl⟩ := execLdVxK_next h <;> exact .inl rfl
  case loadRegs =>
    obtain ⟨-, rfl⟩ | ⟨-, rfl⟩ := raise_or_effect h
    · exact .inl rfl
    · exact .inl (bumpI_mem _ _)
  case ldB x =>
    obtain ⟨-, rfl⟩ | ⟨hin, rfl⟩ := raise_or_effect h
    · exact .inl rfl
    · exact .inr ⟨bcdDigits (s.readV x), atI_add_le_memSize (n := 3) (by decide) hin, rfl⟩
  case storeRegs x =>
    obtain ⟨-, rfl⟩ | ⟨hin, rfl⟩ := raise_or_effect h
    · exact .inl rfl
    · refine .inr ⟨s.regsUpTo x, ?_, bumpI_mem _ _⟩
      rw [length_regsUpTo]
      exact atI_add_le_memSize (Nat.succ_pos _) hin
  all_goals cases h; exact .inl rfl

/-- The canonical form speaks of the list and FONT_BASE alone. -/
theorem MemoryCanonical.congr {s t : State} (hs : MemoryCanonical s) (hcfg : t.cfg = s.cfg) (hmem : t.mem = s.mem) :
    MemoryCanonical t := by
  unfold MemoryCanonical
  rw [hcfg, hmem]
  exact hs

theorem exec_memoryCanonical {i : Instr} {s t : State} (hs : MemoryCanonical s) (h : exec i s = .next t) :
    MemoryCanonical t := by
  have hcfg : t.cfg = s.cfg := exec_frame h .cfg (cfg_notMem_mayWrite i)
  obtain hmem | ⟨bs, hin, hmem⟩ := exec_mem h
  · exact hs.congr hcfg hmem
  · exact (canonical_writeBytes s (s.atI 0) bs hs hin).congr hcfg hmem

/-- Only the instructions touch memory. -/
theorem memoryCanonical_keptByParts : KeptByParts MemoryCanonical where
  turns _ _ hs := hs
  changed _ _ hs := hs
  fatal _ _ _ _ hs := hs
  illegal _ _ hs _ := hs
  instr s _ _ _ hs _ _ he := exec_memoryCanonical (s := s.advance) hs he
  tick _ hs := hs
  key _ _ _ hs := hs
  dirty _ _ hs := hs
  stopped _ _ hs := hs

/-- Settles O51: an instruction writes memory only by a run of bytes that the check of R57 keeps below 4096, and such
a run keeps the list canonical. -/
theorem stepKeepsMemoryCanonical : Obligations.StepKeepsMemoryCanonical :=
  fun _ _ hs h => memoryCanonical_keptByParts.step hs h

/-! ### A store is seen by the next fetch (R55, R65) -/

/-- After Fx55 in bounds, V[k] is the byte at I + k (R150). -/
theorem readByte_storeRegs {x : Nibble} {s t : State} (h : exec (.storeRegs x) s = .next t)
    (hin : s.i.toNat + x.toNat ≤ 4095) {a : Nat} (hlo : s.i.toNat ≤ a) (hhi : a ≤ s.i.toNat + x.toNat) :
    t.readByte a = s.readV (BitVec.ofNat 4 (a - s.i.toNat)) := by
  obtain ⟨hout, -⟩ | ⟨-, rfl⟩ := raise_or_effect h
  · have hlast := (outOfBounds_iff _ _).1 hout
    omega
  · calc ((s.writeBytes (s.atI 0) (s.regsUpTo x)).bumpI x).readByte a
        = (s.writeBytes s.i.toNat (s.regsUpTo x)).readByte a := frame_bumpI _ x .mem (by simp) a
      _ = (s.regsUpTo x).getD (a - s.i.toNat) 0 := by
        rw [readByte_writeBytes, length_regsUpTo, if_pos ⟨hlo, by omega⟩]
      _ = s.readV (BitVec.ofNat 4 (a - s.i.toNat)) := getD_regsUpTo s x _ (by omega)

/-- Settles O25: the fetch joins the bytes at p and p + 1, and both are registers that Fx55 has just stored. -/
theorem storeIsSeenByNextFetch : Obligations.StoreIsSeenByNextFetch := by
  intro x p s t hin hlo hhi h
  refine ⟨_, fetch_of_le (t.setPc p) (show p.toNat ≤ 4094 by omega), ?_⟩
  rw [toNat_joinBytes, setPc_pc, readByte_setPc, readByte_setPc, readByte_storeRegs h hin hlo (by omega),
    readByte_storeRegs h hin (by omega) hhi]

/-! ### Where the core cannot fetch (R56, R59) -/

theorem oddRefused_iff (s : State) : s.oddRefused = true ↔ s.pc.toNat % 2 = 1 ∧ s.cfg.oddPc = .refuse := by
  simp [State.oddRefused]

/-- The fetch is not refused at an even pc, nor anywhere with ODD_PC = execute. -/
theorem oddRefused_eq_false {s : State} (h : s.pc.toNat % 2 = 0 ∨ s.cfg.oddPc = .execute) : s.oddRefused = false := by
  obtain h | h := h <;> simp [State.oddRefused, h]

theorem CoreReady.halted {s : State} (h : CoreReady s) : s.halted = false := by
  obtain ⟨-, -, hfault⟩ := h
  simp [State.halted, hfault]

/-- A step at a pc where the fetch is refused (R59). -/
theorem step_oddRefused {s : State} (h : CoreReady s) (ho : s.oddRefused = true) : step s = .refused .misalignedPc := by
  have hh : (s.setTurns s.turns.tail).halted = false := h.halted
  have ho' : (s.setTurns s.turns.tail).oddRefused = true := ho
  rw [step_core s h, coreStep_eq, hh, ho']
  rfl

/-- A step at an accepted pc from which no word can be fetched (R56). -/
theorem step_unfetched {s : State} (h : CoreReady s) (ho : s.oddRefused = false) (hf : s.fetch = none) :
    step s = .next (s.begun.takeFatal .memoryOutOfBounds none s.pc) := by
  have hh : (s.setTurns s.turns.tail).halted = false := h.halted
  have ho' : (s.setTurns s.turns.tail).oddRefused = false := ho
  have hf' : (s.setTurns s.turns.tail).fetch = none := hf
  rw [step_core s h, coreStep_eq, hh, ho', hf']
  rfl

/-- Settles O37: the fetch answers nothing, so the step enters the fatal state from `begun`. -/
theorem fetchOutOfBoundsRaises : Obligations.FetchOutOfBoundsRaises := by
  intro s hready hodd hpc
  have hf : s.fetch = none := (fetch_eq_none_iff s).2 hpc
  refine ⟨_, step_unfetched hready (oddRefused_eq_false hodd) hf, rfl, rfl, ?_⟩
  exact (((frame_begun s).append (frame_setFault _ _)).append (frame_setChanged _ _)).mono (by simp)

/-- Settles O39: an odd pc with ODD_PC = refuse is where the fetch is refused. -/
theorem oddPcIsRefused : Obligations.OddPcIsRefused :=
  fun s hready hodd hrefuse => step_oddRefused hready ((oddRefused_iff s).2 ⟨hodd, hrefuse⟩)

end Sys2Proof.Machine
end

section
/-! Proofs of the statements about the encoding (spec/30_encoding.md). First the decoder on the word of an
instruction, then what each part of the decoder accepts and what it rejects, then the step that runs the decoded
word. -/

namespace Sys2Proof

/-! ### The decoder on an encoded instruction (R72, R80 to R85) -/

/-- Each format's fields give the operands back; families 0, 8, E and F then select on their second-level key. -/
theorem decodeWord_encode (i : Instr) : decodeWord (encode i) = .instr i := by
  cases i with
  | cls | ret => rfl
  | jp | call | ldI | jpV0 => simp [encode, decodeWord]
  | seByte | sneByte | ldByte | addByte | rnd => simp [encode, decodeWord]
  | seReg | sneReg | drw => simp [encode, decodeWord]
  | ldReg | orReg | andReg | xorReg | addReg | subReg | shr | subnReg | shl => simp [encode, decodeWord, decode8]
  | skp | sknp => simp [encode, decodeWord, decodeE]
  | ldVxDt | ldVxK | ldDtVx | ldStVx | addI | ldF | ldB | storeRegs | loadRegs => simp [encode, decodeWord, decodeF]

/-- Decoding two bytes and more is decoding their word (R55, R70). -/
theorem decode_eq_ok_iff {hi lo : Byte} {rest rest' : List Byte} {i : Instr} :
    decode (hi :: lo :: rest) = .ok (i, rest') ↔ decodeWord (joinBytes hi lo) = .instr i ∧ rest = rest' := by
  rw [decode]
  cases decodeWord (joinBytes hi lo) <;> simp

/-- Settles O56: the two bytes join to the encoded word, which decodes to its instruction. -/
theorem decodeOfEncodeIsIdentity : Obligations.DecodeOfEncodeIsIdentity := by
  intro i rest
  have hword : decodeWord (joinBytes (highByte (encode i)) (lowByte (encode i))) = .instr i := by
    rw [joinBytes_bytes, decodeWord_encode]
  exact decode_eq_ok_iff.2 ⟨hword, rfl⟩

/-! ### A word that decodes is the encoding of its instruction (R71, R80 to R85)

A word is rebuilt from its fields in every layout; so it is enough that its family and second-level key are the ones
the encoder writes. -/

section layouts
variable {op : Word} {f : Nibble} (hf : (fieldF op).toNat = f.toNat)
include hf

theorem encodeNNN_of_family : encodeNNN f (fieldNNN op) = op := by
  rw [← BitVec.eq_of_toNat_eq hf, encodeNNN_fields]

theorem encodeXKK_of_family : encodeXKK f (fieldX op) (fieldKK op) = op := by
  rw [← BitVec.eq_of_toNat_eq hf, encodeXKK_fields]

theorem encodeXYN_of_family {n : Nibble} (hn : fieldN op = n) : encodeXYN f (fieldX op) (fieldY op) n = op := by
  rw [← BitVec.eq_of_toNat_eq hf, ← hn, encodeXYN_fields]

end layouts

theorem encode_of_decode0 {op : Word} {i : Instr} (h : decode0 op = .instr i) : encode i = op := by
  unfold decode0 at h
  split_ifs at h <;> cases h <;> exact Eq.symm ‹_›

theorem encode_of_decode8 {x y n : Nibble} {i : Instr} (h : decode8 x y n = .instr i) :
    encode i = encodeXYN 0x8#4 x y n := by
  unfold decode8 at h
  split at h <;> cases h <;> exact congrArg (encodeXYN _ x y) (BitVec.eq_of_toNat_eq (Eq.symm ‹_›))

theorem encode_of_decodeE {x : Nibble} {kk : Byte} {i : Instr} (h : decodeE x kk = .instr i) :
    encode i = encodeXKK 0xE#4 x kk := by
  unfold decodeE at h
  split_ifs at h <;> cases h <;> subst kk <;> rfl

theorem encode_of_decodeF {x : Nibble} {kk : Byte} {i : Instr} (h : decodeF x kk = .instr i) :
    encode i = encodeXKK 0xF#4 x kk := by
  unfold decodeF at h
  split_ifs at h <;> cases h <;> subst kk <;> rfl

/-- Settles O57: the sixteen cases are the families of R80, `h_1` family 0 to `h_16` family F, and each rebuilds the word
in its layout. -/
theorem encodeOfDecodeIsIdentity : Obligations.EncodeOfDecodeIsIdentity := by
  intro op i h
  unfold decodeWord at h
  split at h
  case h_1 => exact encode_of_decode0 h
  case h_2 _ hf | h_3 _ hf | h_11 _ hf | h_12 _ hf => cases h; exact encodeNNN_of_family hf
  case h_4 _ hf | h_5 _ hf | h_7 _ hf | h_8 _ hf | h_13 _ hf => cases h; exact encodeXKK_of_family hf
  case h_6 _ hf | h_10 _ hf =>
    dsimp only at h
    split_ifs at h with hn
    cases h
    exact encodeXYN_of_family hf hn
  case h_9 _ hf => rw [encode_of_decode8 h, encodeXYN_of_family hf rfl]
  case h_14 _ hf => cases h; exact encodeXYN_of_family hf rfl
  case h_15 _ hf => rw [encode_of_decodeE h, encodeXKK_of_family hf]
  case h_16 =>
    have hlt : (fieldF op).toNat < 16 := (fieldF op).isLt
    have hf : (fieldF op).toNat = 15 := by simp only [imp_false] at *; omega
    rw [encode_of_decodeF h, encodeXKK_of_family hf]

/-! ### The words that do not decode (R81 to R86) -/

theorem nibble_cases (f : Nibble) : f = 0x0#4 ∨ f = 0x1#4 ∨ f = 0x2#4 ∨ f = 0x3#4 ∨ f = 0x4#4 ∨ f = 0x5#4 ∨
    f = 0x6#4 ∨ f = 0x7#4 ∨ f = 0x8#4 ∨ f = 0x9#4 ∨ f = 0xA#4 ∨ f = 0xB#4 ∨ f = 0xC#4 ∨ f = 0xD#4 ∨ f = 0xE#4 ∨
    f = 0xF#4 := by decide +revert

/-- The constant byte of a word is its last two nibbles (R71). -/
@[simp] theorem fieldKK_XYN (f x y n : Nibble) : fieldKK (encodeXYN f x y n) = y ++ n := by
  apply BitVec.eq_of_toNat_eq; rw [toNat_fieldKK, toNat_XYN, toNat_concat]; omega

theorem decode0_illegal_iff (op : Word) :
    (∃ why, decode0 op = .illegal why) ↔ op ≠ 0x00E0#16 ∧ op ≠ 0x00EE#16 := by
  unfold decode0
  split_ifs <;> simp [*]

theorem decode8_illegal_iff (x y n : Nibble) :
    (∃ why, decode8 x y n = .illegal why) ↔ 8 ≤ n.toNat ∧ n ≠ 0xE#4 := by
  obtain rfl | rfl | rfl | rfl | rfl | rfl | rfl | rfl | rfl | rfl | rfl | rfl | rfl | rfl | rfl | rfl :=
    nibble_cases n <;> simp [decode8]

theorem decodeE_illegal_iff (x : Nibble) (kk : Byte) :
    (∃ why, decodeE x kk = .illegal why) ↔ kk ≠ 0x9E#8 ∧ kk ≠ 0xA1#8 := by
  unfold decodeE
  split_ifs <;> simp [*]

theorem decodeF_illegal_iff (x : Nibble) (kk : Byte) :
    (∃ why, decodeF x kk = .illegal why) ↔ kk ≠ 0x07#8 ∧ kk ≠ 0x0A#8 ∧ kk ≠ 0x15#8 ∧ kk ≠ 0x18#8 ∧ kk ≠ 0x1E#8 ∧
      kk ≠ 0x29#8 ∧ kk ≠ 0x33#8 ∧ kk ≠ 0x55#8 ∧ kk ≠ 0x65#8 := by
  unfold decodeF
  split_ifs <;> simp [*]

/-- Families 5 and 9: one condition decides (D9). -/
theorem ite_illegal_iff {c : Prop} [Decidable c] (i : Instr) (why : Reject) :
    (∃ w, (if c then Decoded.instr i else .illegal why) = .illegal w) ↔ ¬c := by
  split_ifs with h <;> simp [h]

/-- Settles O58: the family of the word selects one line of the list. -/
theorem illegalWordsAreTheListedOnes : Obligations.IllegalWordsAreTheListedOnes := by
  intro f x y n
  change (∃ why, decodeWord (encodeXYN f x y n) = .illegal why) ↔
    f = 0x0#4 ∧ encodeXYN f x y n ≠ 0x00E0#16 ∧ encodeXYN f x y n ≠ 0x00EE#16 ∨ _
  obtain rfl | rfl | rfl | rfl | rfl | rfl | rfl | rfl | rfl | rfl | rfl | rfl | rfl | rfl | rfl | rfl :=
    nibble_cases f
  all_goals
    simp [decodeWord, ite_illegal_iff, decode0_illegal_iff, decode8_illegal_iff, decodeE_illegal_iff, decodeF_illegal_iff]

/-- Settles O59: the decoder evaluates on each of the ten words. -/
theorem sampleWordsDecode : Obligations.SampleWordsDecode := by
  unfold Obligations.SampleWordsDecode
  decide

end Sys2Proof

namespace Sys2Proof.Machine

/-! ### The step runs the decoded word (R75, R86) -/

theorem runWord_instr {op : Word} {i : Instr} (h : decodeWord op = .instr i) (s : State) :
    runWord op s = exec i s.advance := by rw [runWord, h]

theorem runWord_illegal {op : Word} {why : Reject} (h : decodeWord op = .illegal why) (s : State) :
    runWord op s = .next (s.advance.raise .decodeError op) := by rw [runWord, h]

/-- Settles O36: the two bytes at pc are the fetched word, and `runWord` executes its instruction. -/
theorem stepRunsDecodedInstruction : Obligations.StepRunsDecodedInstruction := by
  intro s i hready hodd hpc hdec
  obtain ⟨hword, -⟩ := decode_eq_ok_iff.1 hdec
  rw [step_fetched s _ hready (oddRefused_eq_false hodd) (fetch_of_le s hpc), runWord_instr hword]
  rfl

/-- Settles O38: the fetched word raises from the advanced state, whose pc - 2 is the fetch address. -/
theorem illegalWordRaisesDecodeError : Obligations.IllegalWordRaisesDecodeError := by
  intro s op why hready hodd hf hdec
  have hstep : step s = .next (s.begun.advance.raise .decodeError op) := by
    rw [step_fetched s op hready (oddRefused_eq_false hodd) hf, runWord_illegal hdec]
  obtain ⟨hfault, hchanged, hframe⟩ := raised_raise s.begun.advance .decodeError op
  have haddr : s.begun.advance.pc - 2 = s.pc := by simp
  refine ⟨_, hstep, by rw [hfault, haddr], hchanged, rfl, ?_⟩
  exact (((frame_begun s).append (frame_setPc _ _)).append hframe).mono (by simp)

end Sys2Proof.Machine
end

section
/-! Proofs of the statements about loads and arithmetic (spec/40_load_arith.md). First what one register write and one
result with its flag leave in the registers, then the sum and the flags as numbers. Each instruction is one such update;
its word is the one that the encoder writes. -/

namespace Sys2Proof.Machine

/-! ### The registers after a write (R20, R22) -/

theorem readV_setV_same (s : State) (x : Nibble) (b : Byte) : (s.setV x b).readV x = b := by
  rw [readV_setV, if_pos rfl]

theorem regsBut_setV (s : State) (x : Nibble) (b : Byte) : RegsBut [x] s (s.setV x b) := by
  intro r hr
  rw [readV_setV, if_neg (List.ne_of_not_mem_cons hr)]

/-- The result stands unless the flag, written last, takes its place (D15). -/
theorem readV_setResult_same {x : Nibble} (hx : x ≠ vf) (s : State) (b : Byte) (f : Bool) :
    (s.setResult x b f).readV x = b := by
  rw [readV_setResult, if_neg hx, if_pos rfl]

theorem readV_setResult_vf (s : State) (x : Nibble) (b : Byte) (f : Bool) :
    (s.setResult x b f).readV vf = flagByte f := by
  rw [readV_setResult, if_pos rfl]

theorem regsBut_setResult (s : State) (x : Nibble) (b : Byte) (f : Bool) :
    RegsBut [x, vf] s (s.setResult x b f) := by
  intro r hr
  obtain ⟨hx, hvf⟩ : r ≠ x ∧ r ≠ vf := by simpa using hr
  rw [readV_setResult, if_neg hvf, if_neg hx]

/-! ### Sum and flags as numbers (R104 to R106) -/

theorem toNat_ofNat_sumOf (a b : Byte) : (BitVec.ofNat 8 (sumOf a b)).toNat = (a.toNat + b.toNat) % 256 :=
  BitVec.toNat_ofNat _ _

theorem flagByte_decide (c : Prop) [Decidable c] : flagByte (decide c) = if c then 1 else 0 := by
  simp [flagByte]

theorem flagByte_carry (a b : Byte) : flagByte (carry a b) = if a.toNat + b.toNat > 255 then 1 else 0 :=
  flagByte_decide _

theorem flagByte_noBorrow (a b : Byte) : flagByte (noBorrow a b) = if a.toNat ≥ b.toNat then 1 else 0 :=
  flagByte_decide _

/-! ### The instructions that write one register (R100, R101, R103) -/

/-- Settles O1: one register write. -/
theorem ldByteLoadsConstant : Obligations.LdByteLoadsConstant :=
  fun x kk s => ⟨decodeWord_encode (.ldByte x kk), _, rfl, readV_setV_same s x kk, regsBut_setV s x kk,
    frame_setV s x kk⟩

/-- Settles O2: one register write, of a byte read before it. -/
theorem ldRegCopiesRegister : Obligations.LdRegCopiesRegister :=
  fun x y s => ⟨decodeWord_encode (.ldReg x y), _, rfl, readV_setV_same s x _, regsBut_setV s x _, frame_setV s x _⟩

/-- Settles O4: one register write, of the truncated sum. -/
theorem addByteWrapsWithoutFlag : Obligations.AddByteWrapsWithoutFlag := by
  intro x kk s
  refine ⟨decodeWord_encode (.addByte x kk), _, rfl, ?_, regsBut_setV s x _, frame_setV s x _⟩
  rw [readV_setV_same, toNat_ofNat_sumOf]

/-! ### The instructions that write a result and its flag (R104, R105, R106) -/

/-- Settles O5: the truncated sum is written first and the carry last. -/
theorem addRegSetsCarry : Obligations.AddRegSetsCarry := by
  intro x y s
  refine ⟨decodeWord_encode (.addReg x y), _, rfl, fun hx => ?_, ?_, regsBut_setResult s x _ _,
    frame_setResult s x _ _⟩
  · rw [readV_setResult_same hx, toNat_ofNat_sumOf]
  · rw [readV_setResult_vf, flagByte_carry]

/-- A truncated difference written first and its no-borrow flag last, for either order of the operands. -/
theorem setResult_diffOf {s t : State} {x : Nibble} {a b : Byte} (ht : t = s.setResult x (diffOf a b) (noBorrow a b)) :
    (x ≠ vf → ((t.readV x).toNat : Int) = ((a.toNat : Int) - b.toNat) % 256) ∧
      t.readV vf = (if a.toNat ≥ b.toNat then 1 else 0) ∧ RegsBut [x, vf] s t ∧ FrameBut [.v] s t := by
  subst ht
  refine ⟨fun hx => ?_, ?_, regsBut_setResult s x _ _, frame_setResult s x _ _⟩
  · rw [readV_setResult_same hx, toNat_diffOf]
  · rw [readV_setResult_vf, flagByte_noBorrow]

/-- Settles O6: the minuend is V[x]. -/
theorem subRegSetsNoBorrow : Obligations.SubRegSetsNoBorrow :=
  fun x y _ => ⟨decodeWord_encode (.subReg x y), _, rfl, setResult_diffOf rfl⟩

/-- Settles O7: the minuend is V[y]. -/
theorem subnRegSetsNoBorrow : Obligations.SubnRegSetsNoBorrow :=
  fun x y _ => ⟨decodeWord_encode (.subnReg x y), _, rfl, setResult_diffOf rfl⟩

/-! ### The instructions that write I (R102, R107) -/

/-- Settles O3: I receives the zero-extended constant. -/
theorem ldILoadsAddress : Obligations.LdILoadsAddress :=
  fun nnn s => ⟨decodeWord_encode (.ldI nnn), _, rfl, toNat_zextAddr nnn, frame_setI s _⟩

/-- Settles O8: I receives the 16-bit sum, and its frame keeps every register, VF included. -/
theorem addIWrapsAtSixteenBits : Obligations.AddIWrapsAtSixteenBits := by
  intro x s
  refine ⟨decodeWord_encode (.addI x), _, rfl, ?_, frame_setI s _⟩
  rw [setI_i, BitVec.toNat_add, toNat_zextByte]

end Sys2Proof.Machine
end

section
/-! Proofs of the statements about bitwise and shift instructions (spec/41_bitwise.md). A logical instruction is one
register write, known by its bits; a shift is one result with its flag, known as numbers. -/

namespace Sys2Proof.Machine

/-! ### The logical instructions (R120, R121, R122) -/

/-- One register write of a byte given bit by bit. VF changes only where it is the register written (D18). -/
theorem setV_getLsbD {r : Byte} {p : Nat → Bool} (hr : ∀ b, r.getLsbD b = p b) (s : State) (x : Nibble) :
    (∀ b, ((s.setV x r).readV x).getLsbD b = p b) ∧ RegsBut [x] s (s.setV x r) ∧ FrameBut [.v] s (s.setV x r) := by
  refine ⟨fun b => ?_, regsBut_setV s x r, frame_setV s x r⟩
  rw [readV_setV_same, hr]

/-- Settles O9: each instruction writes the bytewise operation, whose bits the library gives. -/
theorem logicalInstructionsCombineBits : Obligations.LogicalInstructionsCombineBits := by
  intro x y s
  refine ⟨⟨decodeWord_encode (.orReg x y), _, rfl, ?or⟩, ⟨decodeWord_encode (.andReg x y), _, rfl, ?and⟩,
    decodeWord_encode (.xorReg x y), _, rfl, ?xor⟩
  case or => exact setV_getLsbD (fun _ => BitVec.getLsbD_or) s x
  case and => exact setV_getLsbD (fun _ => BitVec.getLsbD_and) s x
  case xor => exact setV_getLsbD (fun _ => BitVec.getLsbD_xor) s x

/-! ### The shifted byte and the bit shifted out as numbers (R123, R124) -/

/-- SHIFT_USES_VY selects the register that is read (D17). -/
theorem shiftSource_eq_readV (s : State) (x y : Nibble) :
    s.shiftSource x y = s.readV (if s.cfg.shiftUsesVy then y else x) :=
  (apply_ite s.readV _ y x).symm

theorem toNat_flagByte (f : Bool) : (flagByte f).toNat = f.toNat := by
  cases f <;> rfl

theorem toNat_ushiftRight_one (b : Byte) : (b >>> 1).toNat = b.toNat / 2 := by
  rw [BitVec.toNat_ushiftRight, Nat.shiftRight_eq_div_pow, pow_one]

theorem toNat_shiftLeft_one (b : Byte) : (b <<< 1).toNat = b.toNat * 2 % 256 := by
  rw [BitVec.toNat_shiftLeft, Nat.shiftLeft_eq, pow_one]

theorem toNat_shiftedOutRight (b : Byte) : (shiftedOutRight b).toNat = b.toNat % 2 := by
  rw [shiftedOutRight, BitVec.getLsbD, Nat.toNat_testBit, pow_zero, Nat.div_one]

/-- Above bit 7 a byte has no bits, so its quotient by 128 is bit 7 alone. -/
theorem toNat_shiftedOutLeft (b : Byte) : (shiftedOutLeft b).toNat = b.toNat / 128 := by
  have hlt : b.toNat < 256 := b.isLt
  rw [shiftedOutLeft, BitVec.getLsbD, Nat.toNat_testBit]
  omega

/-! ### The shifts (R123, R124) -/

/-- A result written first and its flag last, both given as numbers. -/
theorem setResult_toNat {r : Byte} {f : Bool} {n m : Nat} (hr : r.toNat = n) (hf : f.toNat = m) (s : State)
    (x : Nibble) :
    (x ≠ vf → ((s.setResult x r f).readV x).toNat = n) ∧ ((s.setResult x r f).readV vf).toNat = m ∧
      RegsBut [x, vf] s (s.setResult x r f) ∧ FrameBut [.v] s (s.setResult x r f) := by
  refine ⟨fun hx => ?_, ?_, regsBut_setResult s x r f, frame_setResult s x r f⟩
  · rw [readV_setResult_same hx, hr]
  · rw [readV_setResult_vf, toNat_flagByte, hf]

/-- Settles O10: half the source is the result and its parity the flag. -/
theorem shrShiftsRightByOne : Obligations.ShrShiftsRightByOne := by
  intro x y s
  rw [← shiftSource_eq_readV]
  exact ⟨decodeWord_encode (.shr x y), _, rfl,
    setResult_toNat (toNat_ushiftRight_one _) (toNat_shiftedOutRight _) s x⟩

/-- Settles O11: the truncated double of the source is the result and its top bit the flag. -/
theorem shlShiftsLeftByOne : Obligations.ShlShiftsLeftByOne := by
  intro x y s
  rw [← shiftSource_eq_readV]
  exact ⟨decodeWord_encode (.shl x y), _, rfl,
    setResult_toNat (toNat_shiftLeft_one _) (toNat_shiftedOutLeft _) s x⟩

end Sys2Proof.Machine
end

section
/-! Proofs of the statements about comparison and skip instructions (spec/42_skip.md). Every one of them is the skip
mechanism of R134 on a comparison, so what is left is whether the comparison holds or fails where the statement skips. -/

namespace Sys2Proof.Machine

section skip
variable {c : Bool} {p : Prop} [Decidable p]

/-- The skip mechanism (R134) on a test that is true exactly where `p` holds. -/
theorem skipIf_of_iff (hc : c = true ↔ p) (s : State) :
    (s.skipIf c).pc = (if p then s.pc + 2 else s.pc) ∧ FrameBut [.pc] s (s.skipIf c) :=
  ⟨(skipIf_pc s c).trans (if_congr hc rfl rfl), frame_skipIf s c⟩

/-- The complement: the test is true exactly where `p` fails (R131, R133). -/
theorem skipIf_of_iff_not (hc : c = true ↔ ¬p) (s : State) :
    (s.skipIf c).pc = (if p then s.pc else s.pc + 2) ∧ FrameBut [.pc] s (s.skipIf c) := by
  rw [← ite_not]
  exact skipIf_of_iff hc s

end skip

/-- Settles O12: the test is the equality of V[x] and the constant. -/
theorem seByteSkipsIfEqual : Obligations.SeByteSkipsIfEqual :=
  fun x kk s => ⟨decodeWord_encode (.seByte x kk), _, rfl, skipIf_of_iff beq_iff_eq s⟩

/-- Settles O13: the test is the inequality of V[x] and the constant. -/
theorem sneByteSkipsIfDifferent : Obligations.SneByteSkipsIfDifferent :=
  fun x kk s => ⟨decodeWord_encode (.sneByte x kk), _, rfl, skipIf_of_iff_not bne_iff_ne s⟩

/-- Settles O14: the test is the equality of two registers. -/
theorem seRegSkipsIfEqual : Obligations.SeRegSkipsIfEqual :=
  fun x y s => ⟨decodeWord_encode (.seReg x y), _, rfl, skipIf_of_iff beq_iff_eq s⟩

/-- Settles O15: the test is the inequality of two registers. -/
theorem sneRegSkipsIfDifferent : Obligations.SneRegSkipsIfDifferent :=
  fun x y s => ⟨decodeWord_encode (.sneReg x y), _, rfl, skipIf_of_iff_not bne_iff_ne s⟩

end Sys2Proof.Machine
end

section
/-! Proofs of the statements about control transfer (spec/43_control.md). First what CALL and RET answer, one equation
for each side of the check on SP, and the frame that the push and the pop share. That a RET undoes a CALL then follows
from the two statements about CALL and RET. -/

namespace Sys2Proof.Machine

/-! ### The jumps (R140, R141) -/

/-- Settles O16: pc receives the zero-extended constant. -/
theorem jpGoesToConstant : Obligations.JpGoesToConstant :=
  fun nnn s => ⟨decodeWord_encode (.jp nnn), _, rfl, toNat_zextAddr nnn, frame_setPc s _⟩

/-- Twelve bits and a byte add up below 65536, so the 16-bit sum is the sum (R141). -/
theorem toNat_zextAddr_add_zextByte (nnn : Addr) (b : Byte) :
    (zextAddr nnn + zextByte b).toNat = nnn.toNat + b.toNat := by
  rw [BitVec.toNat_add, toNat_zextAddr, toNat_zextByte]
  omega

/-- Settles O17: pc receives the 16-bit sum, which does not wrap. -/
theorem jpV0AddsRegisterZero : Obligations.JpV0AddsRegisterZero :=
  fun nnn s => ⟨decodeWord_encode (.jpV0 nnn), _, rfl, toNat_zextAddr_add_zextByte nnn _, frame_setPc s _⟩

/-! ### What CALL and RET answer (R142, R143) -/

theorem exec_call_of_full {s : State} (h : s.sp.val = 16) (nnn : Addr) :
    exec (.call nnn) s = .next (s.raise .stackOverflow (encode (.call nnn))) :=
  if_pos h

theorem exec_call_of_lt {s : State} (h : s.sp.val < 16) (nnn : Addr) :
    exec (.call nnn) s = .next ((s.push s.pc).setPc (zextAddr nnn)) :=
  if_neg h.ne

theorem exec_ret_of_empty {s : State} (h : s.sp.val = 0) :
    exec .ret s = .next (s.raise .stackUnderflow (encode .ret)) :=
  if_pos h

theorem exec_ret_of_pos {s : State} (h : 0 < s.sp.val) : exec .ret s = .next (s.drop.setPc s.top) :=
  if_neg h.ne'

/-- A push or a pop followed by a jump. -/
theorem FrameBut.setPc_of_stack {s t : State} (h : FrameBut [.stack] s t) (w : Word) :
    FrameBut [.pc, .stack] s (t.setPc w) :=
  (h.append (frame_setPc t w)).mono (by simp)

/-! ### CALL and RET (R142, R143) -/

/-- Settles O18: a full stack raises; any other receives the advanced pc on top. -/
theorem callPushesReturnAddress : Obligations.CallPushesReturnAddress := by
  intro nnn s
  refine ⟨decodeWord_encode (.call nnn), fun hfull => ?_, fun hlt => ?_⟩
  · exact ⟨_, exec_call_of_full hfull nnn, raised_raise s _ _⟩
  · exact ⟨_, exec_call_of_lt hlt nnn, push_sp s _ hlt, push_stack s _ hlt, toNat_zextAddr nnn,
      (frame_push s _).setPc_of_stack _⟩

/-- Settles O19: an empty stack raises; any other gives its newest entry, which `drop` leaves in place. -/
theorem retPopsReturnAddress : Obligations.RetPopsReturnAddress := by
  intro s
  refine ⟨decodeWord_encode .ret, fun hempty => ?_, fun hpos => ?_⟩
  · exact ⟨_, exec_ret_of_empty hempty, raised_raise s _ _⟩
  · exact ⟨_, exec_ret_of_pos hpos, Nat.sub_add_cancel hpos, fun _ _ => rfl, fun _ => rfl,
      (frame_drop s).setPc_of_stack _⟩

/-- Settles O20: after the CALL the stack is not empty, and the entry that the RET reads is the one the CALL wrote. -/
theorem callThenRetComesBack : Obligations.CallThenRetComesBack := by
  intro nnn target s t hlt hcall
  obtain ⟨-, -, hpush⟩ := callPushesReturnAddress nnn s
  obtain ⟨t', hcall', htsp, htstack, -, htframe⟩ := hpush hlt
  obtain rfl : t = t' := by cases hcall.symm.trans hcall'; rfl
  obtain ⟨-, -, hpop⟩ := retPopsReturnAddress (t.setPc target)
  obtain ⟨u, hret, husp, -, hupc, huframe⟩ := hpop (by rw [setPc_sp]; omega)
  have hsp : u.sp.val = s.sp.val := by rw [setPc_sp] at husp; omega
  have hpc : u.pc = s.pc := by rw [hupc (by omega), setPc_stack, htstack, if_pos hsp]
  have hmove : FrameBut [.pc, .stack] t (t.setPc target) := (frame_setPc t target).mono (by simp)
  exact ⟨u, hret, hpc, Fin.ext hsp, htframe.trans (hmove.trans huframe)⟩

end Sys2Proof.Machine
end

section
/-! Proofs of the statements about memory instructions (spec/44_memory_ops.md). First the check of a whole range at I,
decided once for Fx33, Fx55 and Fx65; then what a run of stores and a run of loads leave, and the digits and the glyph
address as numbers. -/

namespace Sys2Proof.Machine

/-! ### The check of the range at I (R57) -/

/-- The last of n + 1 bytes at I is the one at I + n. -/
theorem outOfBounds_succ_iff (s : State) (n : Nat) : s.outOfBounds (n + 1) = true ↔ s.i.toNat + n > 4095 := by
  rw [outOfBounds_iff]
  exact and_iff_right (Nat.succ_pos n)

section check
variable {s : State} {n : Nat}

/-- A checked access whose range leaves memory raises and has no effect (D11, D34). -/
theorem checked_raises (h : s.i.toNat + n > 4095) (op : Word) (effect : Host.Outcome State Fault Refusal) :
    ∃ t, (if s.outOfBounds (n + 1) then .next (s.raise .memoryOutOfBounds op) else effect) = .next t ∧
      Raised .memoryOutOfBounds op s t :=
  ⟨_, if_pos ((outOfBounds_succ_iff s n).2 h), raised_raise s _ op⟩

/-- One whose range stays in memory has its effect. -/
theorem checked_eq_effect (h : s.i.toNat + n ≤ 4095) (raised effect : Host.Outcome State Fault Refusal) :
    (if s.outOfBounds (n + 1) then raised else effect) = effect :=
  if_neg (mt (outOfBounds_succ_iff s n).1 h.not_gt)

end check

/-! ### Runs of stores and loads (R58, R150, R151) -/

theorem readByte_writeBytes_add (s : State) (a : Nat) {k : Nat} {bs : List Byte} (hk : k < bs.length) :
    (s.writeBytes a bs).readByte (a + k) = bs.getD k 0 := by
  rw [readByte_writeBytes, if_pos ⟨Nat.le_add_right a k, Nat.add_lt_add_left hk a⟩, Nat.add_sub_cancel_left]

theorem memBut_writeBytes (s : State) (a : Nat) (bs : List Byte) : MemBut a bs.length s (s.writeBytes a bs) := by
  intro b hb
  rw [readByte_writeBytes, if_neg hb]

/-- Moving I leaves memory as it is. -/
theorem MemBut.bumpI {a n : Nat} {s t : State} (h : MemBut a n s t) (x : Nibble) : MemBut a n s (t.bumpI x) :=
  fun b hb => (frame_bumpI t x .mem (by simp) b).trans (h b hb)

/-- Fx65 loads V[r] from the byte r places up, for every r up to x. -/
theorem readV_fillRegs_upTo (s : State) (x r : Nibble) (a : Nat) (h : r.toNat ≤ x.toNat) :
    (s.setRegs (fillRegs s.v 0 (s.readBytes a (x.toNat + 1)))).readV r = s.readByte (a + r.toNat) := by
  have hlen : r.toNat < (Memory.readBytes s.cfg.fontBase s.mem a (x.toNat + 1)).length := by
    rw [length_readBytes]; omega
  rw [readV_setRegs, getElem_fillRegs, State.readBytes, if_pos (by omega), Nat.sub_zero,
    List.getD_eq_getElem _ _ hlen, getElem_readBytes, State.readByte]

/-! ### The instructions that move registers to and from memory (R150, R151) -/

/-- Settles O21: `readByte_storeRegs` gives the stored bytes, and moving I afterwards leaves memory alone. -/
theorem storeRegsWritesRange : Obligations.StoreRegsWritesRange := by
  intro x s
  refine ⟨decodeWord_encode (.storeRegs x), fun hgt => checked_raises hgt _ _, fun hle => ?_⟩
  have hexec : exec (.storeRegs x) s = .next ((s.writeBytes s.i.toNat (s.regsUpTo x)).bumpI x) :=
    checked_eq_effect hle _ _
  refine ⟨_, hexec, fun k hk => ?_, ?_, bumpI_i _ x, (frame_writeBytes s _ _).append (frame_bumpI _ x)⟩
  · rw [readByte_storeRegs hexec hle (by omega) (by omega), Nat.add_sub_cancel_left]
  · rw [← length_regsUpTo s x]
    exact (memBut_writeBytes s _ _).bumpI x

/-- Settles O22: the registers are loaded up to x and kept above it, and moving I afterwards leaves them alone. -/
theorem loadRegsReadsRange : Obligations.LoadRegsReadsRange := by
  intro x s
  refine ⟨decodeWord_encode (.loadRegs x), fun hgt => checked_raises hgt _ _, fun hle => ?_⟩
  refine ⟨_, checked_eq_effect hle _ _, fun r => ?_, bumpI_i _ x, (frame_setRegs s _).append (frame_bumpI _ x)⟩
  rw [frame_bumpI _ x .v (by simp) r]
  split
  · exact readV_fillRegs_upTo s x r _ ‹_›
  · exact readV_fillRegs_above s x r _ ‹_›

/-! ### The decimal digits (R152) -/

/-- Each digit of a byte fits a byte. -/
theorem toNat_bcdDigits (b : Byte) :
    ((bcdDigits b).getD 0 0).toNat = b.toNat / 100 ∧ ((bcdDigits b).getD 1 0).toNat = b.toNat / 10 % 10 ∧
      ((bcdDigits b).getD 2 0).toNat = b.toNat % 10 := by
  have hb : b.toNat < 256 := b.isLt
  have hfits : ∀ d < 256, (BitVec.ofNat 8 d).toNat = d := fun d hd =>
    (BitVec.toNat_ofNat d 8).trans (Nat.mod_eq_of_lt hd)
  exact ⟨hfits _ (by omega), hfits _ (by omega), hfits _ (by omega)⟩

/-- Settles O23: the three stored bytes are the digits, hundreds first. -/
theorem ldBStoresDecimalDigits : Obligations.LdBStoresDecimalDigits := by
  intro x s
  refine ⟨decodeWord_encode (.ldB x), fun hgt => checked_raises hgt _ _, fun hle => ?_⟩
  have hstored : ∀ k < 3, (s.writeBytes s.i.toNat (bcdDigits (s.readV x))).readByte (s.i.toNat + k) =
      (bcdDigits (s.readV x)).getD k 0 := fun _ hk => readByte_writeBytes_add s _ hk
  obtain ⟨hundreds, tens, ones⟩ := toNat_bcdDigits (s.readV x)
  rw [← hstored _ (by decide)] at hundreds tens ones
  exact ⟨_, checked_eq_effect hle _ _, hundreds, tens, ones, memBut_writeBytes s _ (bcdDigits (s.readV x)),
    frame_writeBytes s _ _⟩

/-! ### The glyph address (R52, R153) -/

/-- The font lies in the reserved bytes, so a glyph's address does not wrap. -/
theorem toNat_glyphAddr (base : Fin 433) (d : Nibble) : (glyphAddr base d).toNat = base.val + 5 * d.toNat := by
  have hbase : base.val < 433 := base.isLt
  have hd : d.toNat < 16 := d.isLt
  rw [glyphAddr, BitVec.toNat_ofNat]
  omega

/-- Settles O24: I receives the address of the glyph that the low nibble selects (D22). -/
theorem ldFPointsAtGlyph : Obligations.LdFPointsAtGlyph := by
  intro x s
  refine ⟨decodeWord_encode (.ldF x), _, rfl, ?_, frame_setI s _⟩
  rw [setI_i, toNat_glyphAddr, toNat_lowNibble]

end Sys2Proof.Machine
end

section
/-! Proofs of the statements about the display (spec/45_display.md). What drawing does to the pixels is said by
`drawSprite_spec`; here the outcome of Dxyn on each side of its check, the flag, and what a second draw of the same
sprite finds. That two draws cancel then follows from the statement about one. -/

namespace Sys2Proof.Machine

/-! ### Clearing (R160) -/

/-- Settles O26: the new display is blank, and a change is reported exactly if `anyLit` finds a set pixel (D29). -/
theorem clsClearsDisplay : Obligations.ClsClearsDisplay :=
  fun s => ⟨decodeWord_encode .cls, _, rfl, pixelAt_blank, anyLit_iff s.disp, rfl, frame_setDisp s _ _⟩

/-! ### The collision flag (R22, R161) -/

theorem readV_setFlag_vf (s : State) (f : Bool) : (s.setFlag f).readV vf = flagByte f :=
  readV_setV_same s vf _

theorem flagByte_eq_zero_or_one (f : Bool) : flagByte f = 0 ∨ flagByte f = 1 := by
  cases f
  · exact .inl rfl
  · exact .inr rfl

theorem flagByte_eq_one_iff (f : Bool) : flagByte f = 1 ↔ f = true := by
  cases f <;> decide

/-! ### What Dxyn answers (R161, R201) -/

section drw
variable {x y n : Nibble} {s : State}

theorem exec_drw_of_raisesAt (h : RaisesAt (.drw x y n) s) :
    exec (.drw x y n) s = .next (s.raise .memoryOutOfBounds (encode (.drw x y n))) :=
  if_pos ((outOfBounds_iff s n.toNat).2 h)

theorem exec_drw_of_not_raisesAt (h : ¬RaisesAt (.drw x y n) s) :
    exec (.drw x y n) s = .next ((s.setDisp (s.drawSprite x y n).disp (s.drawSprite x y n).changed).setFlag
      (s.drawSprite x y n).collision) :=
  if_neg (mt (outOfBounds_iff s n.toNat).1 h)

/-- The pixels of a sprite depend only on the coordinates, I, memory and WRAP. -/
theorem spriteCovers_congr {t : State} (hx : t.readV x = s.readV x) (hy : t.readV y = s.readV y) (hi : t.i = s.i)
    (hmem : AgreeOn .mem s t) (hcfg : t.cfg = s.cfg) (px py : Nat) :
    SpriteCovers t x y n px py ↔ SpriteCovers s x y n px py := by
  have hbyte : ∀ a, t.readByte a = s.readByte a := hmem
  simp only [SpriteCovers, hx, hy, hi, hbyte, hcfg]

end drw

/-! ### Drawing once and twice (R161, R163) -/

/-- Settles O27: `drawSprite_spec` gives the pixels, the collision and the change; the flag is the only register
written. -/
theorem drwXorsSprite : Obligations.DrwXorsSprite := by
  intro x y n s
  refine ⟨decodeWord_encode (.drw x y n), fun hraise => ?_, fun hin => ?_⟩
  · exact ⟨_, exec_drw_of_raisesAt hraise, raised_raise s _ _⟩
  · obtain ⟨hpixel, hcollision, hchanged⟩ := drawSprite_spec s x y n
    refine ⟨_, exec_drw_of_not_raisesAt hin, hpixel, ?_, ?_, hchanged, rfl, regsBut_setV _ vf _, ?_⟩
    · rw [readV_setFlag_vf]
      exact flagByte_eq_zero_or_one _
    · rw [readV_setFlag_vf, flagByte_eq_one_iff, hcollision]
    · exact ((frame_setDisp s _ _).append (frame_setFlag _ _)).mono (by simp)

/-- Two changes in a row that invert the same pixels cancel. -/
theorem display_eq_of_same_changes {d e f : Display} {changes : Nat → Nat → Prop}
    (hde : ∀ y x (h : y < 32 ∧ x < 64), pixelAt e y x h ≠ pixelAt d y x h ↔ changes x y)
    (hef : ∀ y x (h : y < 32 ∧ x < 64), pixelAt f y x h ≠ pixelAt e y x h ↔ changes x y) : f = d := by
  have hbool : ∀ a b c : Bool, (a ≠ b ↔ b ≠ c) → a = c := by decide
  exact display_ext fun y x h => hbool _ _ _ ((hef y x h).trans (hde y x h).symm)

/-- Settles O28: the first draw keeps all that the sprite depends on, so the second inverts the same pixels. -/
theorem drawingTwiceRestoresDisplay : Obligations.DrawingTwiceRestoresDisplay := by
  intro x y n s t hin hdraw hx hy
  obtain ⟨-, -, hfirst⟩ := drwXorsSprite x y n s
  obtain ⟨t', hdraw', htpixel, -, -, -, -, -, hframe⟩ := hfirst hin
  obtain rfl : t = t' := by cases hdraw.symm.trans hdraw'; rfl
  have hi : t.i = s.i := hframe .i (by simp)
  have hcovers : ∀ px py, SpriteCovers t x y n px py ↔ SpriteCovers s x y n px py :=
    spriteCovers_congr hx hy hi (hframe .mem (by simp)) (hframe .cfg (by simp))
  obtain ⟨-, -, hsecond⟩ := drwXorsSprite x y n t
  obtain ⟨u, hdraw₂, hupixel, -, hvf, -⟩ := hsecond (by rwa [hi])
  simp only [hcovers] at hupixel hvf
  exact ⟨u, hdraw₂, display_eq_of_same_changes htpixel hupixel, hvf⟩

end Sys2Proof.Machine
end

section
/-! Proofs of the statements about timers, keys and random numbers (spec/46_timer_key_random.md). Each instruction comes
from the rules of the operations it is made of: the two skips from the key that a register names, Fx0A from what it
answers on each side of its test. -/

namespace Sys2Proof.Machine

/-! ### The timers (R175 to R177, R230) -/

/-- Settles O29: one register write, of the delay timer. -/
theorem ldVxDtReadsDelayTimer : Obligations.LdVxDtReadsDelayTimer :=
  fun x s => ⟨decodeWord_encode (.ldVxDt x), _, rfl, readV_setV_same s x s.dt, regsBut_setV s x s.dt,
    frame_setV s x s.dt⟩

/-- Settles O30: one write of the delay timer. -/
theorem ldDtVxSetsDelayTimer : Obligations.LdDtVxSetsDelayTimer :=
  fun x s => ⟨decodeWord_encode (.ldDtVx x), _, rfl, setDT_dt s _, frame_setDT s _⟩

/-- `sound_active` is read off the sound timer alone (D32). -/
theorem soundActive_iff (s : State) : s.soundActive = true ↔ s.st.toNat ≠ 0 :=
  bne_iff_ne.trans BitVec.toNat_ne

/-- Settles O31: one write of the sound timer, which `sound_active` follows. -/
theorem ldStVxSetsSoundTimer : Obligations.LdStVxSetsSoundTimer :=
  fun x s => ⟨decodeWord_encode (.ldStVx x), _, rfl, setST_st s _, soundActive_iff (s.setST (s.readV x)),
    frame_setST s _⟩

/-! ### The key skips (R179, R180) -/

/-- The low nibble of V[x] is the one key that V[x] modulo 16 numbers (D23). -/
theorem eq_lowNibble {s : State} {x k : Nibble} (hk : k.toNat = (s.readV x).toNat % 16) : k = s.lowNibble x :=
  BitVec.eq_of_toNat_eq (hk.trans (toNat_lowNibble s x).symm)

/-- Settles O33: the test is the key that the low nibble selects. -/
theorem skpSkipsIfKeyDown : Obligations.SkpSkipsIfKeyDown := by
  intro x s
  refine ⟨decodeWord_encode (.skp x), _, rfl, fun k hk => ?_, frame_skipIf s _⟩
  rw [eq_lowNibble hk, skipIf_pc]

/-- Settles O34: the test is the negation of the one that SKP makes. -/
theorem sknpSkipsIfKeyUp : Obligations.SknpSkipsIfKeyUp := by
  intro x s
  have hup : (!s.keyDown (s.lowNibble x)) = true ↔ ¬s.keyDown (s.lowNibble x) = true := by simp
  obtain ⟨hpc, hframe⟩ := skipIf_of_iff_not hup s
  refine ⟨decodeWord_encode (.sknp x), _, rfl, fun k hk => ?_, hframe⟩
  rw [eq_lowNibble hk, hpc]

/-! ### Waiting for a key (R33, R178) -/

theorem exec_ldVxK_of_up {s : State} (h : ∀ k, s.keyDown k = false) (x : Nibble) :
    exec (.ldVxK x) s = .next (s.rewind.setLatch true x) := by
  have hnone : s.keysDown = [] := List.eq_nil_iff_forall_not_mem.2 fun k hk => by simp [mem_keysDown, h] at hk
  rw [exec, execLdVxK, hnone]

/-- V[x] receives the selected key as a byte (D24). -/
theorem exec_ldVxK_of_down {s : State} {k : Nibble} (h : s.keyDown k = true) (x : Nibble) :
    exec (.ldVxK x) s =
      .next (((s.setV x (zextNibble (pickKey s.keysDown s.draws))).setLatch false s.kwReg).tookDraw) := by
  obtain ⟨k', ks, hsome⟩ := List.exists_cons_of_ne_nil (List.ne_nil_of_mem ((mem_keysDown s k).2 h))
  rw [exec, execLdVxK, hsome]

/-- The selected key is down wherever some key is. -/
theorem keyDown_pickKey {s : State} {k : Nibble} (h : s.keyDown k = true) (n : Nat) :
    s.keyDown (pickKey s.keysDown n) = true :=
  (mem_keysDown s _).1 (pickKey_mem _ n (List.ne_nil_of_mem ((mem_keysDown s k).2 h)))

/-- Settles O32: without a key pc goes back and the latch is set; with one its index goes to V[x] (D24, D25). -/
theorem ldVxKWaitsForKey : Obligations.LdVxKWaitsForKey := by
  intro x s
  refine ⟨decodeWord_encode (.ldVxK x), fun hup => ?_, fun ⟨k, hdown⟩ => ?_⟩
  · exact ⟨_, exec_ldVxK_of_up hup x, rfl, rfl, rfl, (frame_setPc s _).append (frame_setLatch _ _ _)⟩
  · refine ⟨_, exec_ldVxK_of_down hdown x, ⟨_, keyDown_pickKey hdown s.draws, ?_⟩, fun r hr => ?_, rfl, rfl, rfl,
      ((frame_setV s x _).append (frame_setLatch _ _ _)).append (frame_tookDraw _)⟩
    · rw [readV_tookDraw, readV_setLatch, readV_setV_same, toNat_zextNibble]
    · rw [readV_tookDraw, readV_setLatch, regsBut_setV s x _ r hr]

/-! ### Random numbers (R181) -/

/-- A masked byte has no bit outside the mask. -/
theorem and_and_not_eq_zero (b kk : Byte) : b &&& kk &&& ~~~kk = 0 := by
  rw [BitVec.and_assoc, BitVec.and_not_self]
  exact BitVec.and_zero

/-- Settles O35: one register write, of the free byte under the mask; then the draw is counted. -/
theorem rndMasksFreeByte : Obligations.RndMasksFreeByte := by
  intro x kk s
  have hread : (s.setV x (Config.rand s.draws &&& kk)).tookDraw.readV x = Config.rand s.draws &&& kk := by
    rw [readV_tookDraw, readV_setV_same]
  refine ⟨decodeWord_encode (.rnd x kk), _, rfl, hread, ?_, rfl, fun r hr => ?_,
    (frame_setV s x _).append (frame_tookDraw _)⟩
  · rw [hread, and_and_not_eq_zero]
  · rw [readV_tookDraw, regsBut_setV s x _ r hr]

end Sys2Proof.Machine
end

section
/-! Proofs of the statements about exceptions and agents (spec/60_exceptions.md). First the step on each agent's turn,
and the outcome of an instruction on both sides of its condition to raise, each said once. -/

namespace Sys2Proof.Machine

/-! ### The step on a given agent's turn (R215, R228, R229, R231) -/

/-- The agent whose turn it is acts on the state with its turn taken off the schedule. -/
theorem step_of_nextTurn {s : State} {a : Turn} (hs : s.stopped = false) (ha : s.nextTurn = a) :
    step s = takeTurn a (s.setTurns s.turns.tail) := by
  rw [step_eq s hs, ha]

/-- Settles O43: the tick decrements both timers, on the state with its turn taken off the schedule. -/
theorem tickDecrementsTimers : Obligations.TickDecrementsTimers :=
  fun s hs hn => ⟨_, step_of_nextTurn hs hn, toNat_tickTimer s.dt, toNat_tickTimer s.st,
    ((frame_setTurns s _).append (frame_tick _)).mono (by simp)⟩

/-- The number below 16 that an index is, as a key. -/
theorem eq_ofNat_iff_of_lt {index : Nat} (h : index < 16) (k : Nibble) :
    k = BitVec.ofNat 4 index ↔ k.toNat = index := by
  rw [← BitVec.toNat_inj, BitVec.toNat_ofNat, Nat.mod_eq_of_lt h]

/-- Settles O45: below 16 the index numbers the one key that is written; from 16 on the call is refused. -/
theorem setKeyWritesOneFlag : Obligations.SetKeyWritesOneFlag := by
  intro s index pressed hs hn
  have hstep := step_of_nextTurn hs hn
  refine ⟨fun hlt => ⟨_, hstep.trans (if_pos hlt), fun k => ?_, ?_⟩, fun hge => hstep.trans (if_neg hge.not_gt)⟩
  · simp only [keyDown_setKey, keyDown_setTurns, eq_ofNat_iff_of_lt hlt]
  · exact ((frame_setTurns s _).append (frame_setKey _ _ _)).mono (by simp)

/-- Settles O46: a present clears the dirty flag; the stop mark is what every later step finds first. -/
theorem presentAndStop : Obligations.PresentAndStop := by
  refine fun s hs => ⟨fun hn => ⟨_, step_of_nextTurn hs hn, rfl, ?_⟩, fun hn => ⟨_, step_of_nextTurn hs hn, rfl, ?_⟩⟩
  · exact ((frame_setTurns s _).append (frame_setDirty _ _)).mono (by simp)
  · exact ((frame_setTurns s _).append (frame_setStopped _ _)).mono (by simp)

/-! ### The fatal state (R207, R219) -/

theorem State.fatal.halted {s : State} (h : s.fatal) : s.halted = true :=
  Option.isSome_iff_ne_none.2 h

/-- In the fatal state the core's step only clears `display_changed` (R207). -/
theorem coreStep_of_fatal {s : State} (h : s.fatal) : coreStep s = .next (s.setChanged false) := by
  rw [coreStep_eq, if_pos h.halted]

/-- The Timer Thread and the host change only the timers, the dirty flag, the keypad and the stop mark (R36, R219). -/
theorem frame_takeTurn_of_ne_core {a : Turn} {s t : State} (ha : a ≠ .core) (h : takeTurn a s = .next t) :
    FrameBut [.dt, .st, .dirty, .key, .stopped] s t := by
  cases a
  case core => exact absurd rfl ha
  case tick => cases h; exact (frame_tick s).mono (by simp)
  case setKey =>
    simp only [takeTurn, actSetKey] at h
    split at h <;> cases h
    exact (frame_setKey s _ _).mono (by simp)
  case present => cases h; exact (frame_setDirty s _).mono (by simp)
  case stop => cases h; exact (frame_setStopped s _).mono (by simp)

/-- Settles O40: the core's step is `coreStep_of_fatal`, and no other agent's action touches the core's state. -/
theorem fatalStateIsTerminal : Obligations.FatalStateIsTerminal := by
  intro s hfatal
  have hcore : takeTurn .core (s.setTurns s.turns.tail) = .next ((s.setTurns s.turns.tail).setChanged false) :=
    coreStep_of_fatal (s := s.setTurns s.turns.tail) hfatal
  have hframe : FrameBut [.displayChanged, .turns] s ((s.setTurns s.turns.tail).setChanged false) :=
    ((frame_setTurns s _).append (frame_setChanged _ _)).mono (by simp)
  refine ⟨fun hs hn => ⟨_, (step_of_nextTurn hs hn).trans hcore, ?_, hframe⟩, fun t h => ?_⟩
  · exact congrArg (StepResult.mk false · s.fault) hfatal.halted
  · obtain ⟨-, h⟩ := step_next h
    by_cases hn : s.nextTurn = .core
    · rw [hn, hcore] at h
      cases h
      exact hframe.mono (by simp)
    · exact ((frame_setTurns s _).append (frame_takeTurn_of_ne_core hn h)).mono (by simp)

/-! ### Which instructions raise, and how (R201, R205, R206) -/

/-- An instruction that tests its condition to raise and whose effect leaves the fault record alone. -/
theorem raises_or_keeps_fault_of_check {i : Instr} {c : Prop} [Decidable c] {s t u : State} (hc : c ↔ RaisesAt i s)
    (hu : FrameBut [.v, .i, .pc, .stack, .mem, .disp, .dirty, .displayChanged] s u)
    (h : (if c then .next (s.raise (raiseKind i) (encode i)) else .next u : Host.Outcome State Fault Refusal) =
      .next t) :
    RaisesAt i s ∧ t = s.raise (raiseKind i) (encode i) ∨ ¬RaisesAt i s ∧ t.fault = s.fault := by
  obtain ⟨hraise, rfl⟩ | ⟨hnot, rfl⟩ := raise_or_effect h
  · exact .inl ⟨hc.1 hraise, rfl⟩
  · exact .inr ⟨mt hc.2 hnot, hu .fault (by simp)⟩

/-- An instruction raises exactly under its condition; otherwise the fault record stays as it is. -/
theorem exec_raises_or_keeps_fault {i : Instr} {s t : State} (h : exec i s = .next t) :
    RaisesAt i s ∧ t = s.raise (raiseKind i) (encode i) ∨ ¬RaisesAt i s ∧ t.fault = s.fault := by
  cases i
  case call =>
    exact raises_or_keeps_fault_of_check (c := s.sp.val = 16) Iff.rfl
      (((frame_push s _).append (frame_setPc _ _)).mono (by simp)) h
  case ret =>
    exact raises_or_keeps_fault_of_check (c := s.sp.val = 0) Iff.rfl
      (((frame_drop s).append (frame_setPc _ _)).mono (by simp)) h
  case drw =>
    exact raises_or_keeps_fault_of_check (outOfBounds_iff s _)
      (((frame_setDisp s _ _).append (frame_setFlag _ _)).mono (by simp)) h
  case ldB =>
    exact raises_or_keeps_fault_of_check (outOfBounds_succ_iff s 2) ((frame_writeBytes s _ _).mono (by simp)) h
  case storeRegs =>
    exact raises_or_keeps_fault_of_check (outOfBounds_succ_iff s _)
      (((frame_writeBytes s _ _).append (frame_bumpI _ _)).mono (by simp)) h
  case loadRegs =>
    exact raises_or_keeps_fault_of_check (outOfBounds_succ_iff s _)
      (((frame_setRegs s _).append (frame_bumpI _ _)).mono (by simp)) h
  all_goals exact .inr ⟨id, exec_frame h .fault (by simp [mayWrite])⟩

/-- Settles O41: a raise writes the record, and without one the record is the one before, none. -/
theorem instructionsRaiseExactlyWhen : Obligations.InstructionsRaiseExactlyWhen := by
  intro i s t hnone h
  obtain ⟨hraise, rfl⟩ | ⟨hnot, hkept⟩ := exec_raises_or_keeps_fault h
  · exact iff_of_true (Option.some_ne_none _) hraise
  · exact iff_of_false (not_not_intro (hkept.trans hnone)) hnot

/-- Settles O42: where the condition holds, the next state is the raise alone. -/
theorem raisingInstructionIsPrecise : Obligations.RaisingInstructionIsPrecise := by
  intro i s t h hraise
  obtain ⟨-, rfl⟩ | ⟨hnot, -⟩ := exec_raises_or_keeps_fault h
  · exact raised_raise s _ _
  · exact absurd hraise hnot

end Sys2Proof.Machine
end

section
/-! Proofs of the statements about the timers along a run (spec/60_exceptions.md R215 to R217). A timer that only ticks
change is a sequence of bytes that runs down; its value is computed once, for DT and ST alike, from the number of ticks. -/

namespace Sys2Proof.Machine

/-! ### Ticks in a row (R217) -/

theorem step_tick {s : State} (hs : s.stopped = false) (ts : List Turn) :
    step (s.setTurns (.tick :: ts)) = .next (s.tick.setTurns ts) :=
  step_eq (s.setTurns (.tick :: ts)) hs

/-- Scheduled ticks run one after the other and leave the rest of the schedule. -/
theorem run_ticks (k : Nat) {s : State} (hs : s.stopped = false) (rest : List Turn) :
    core.run k (s.setTurns (List.replicate k .tick ++ rest)) = .next ((State.tick^[k] s).setTurns rest) := by
  induction k generalizing s with
  | zero => rfl
  | succ k ih => exact (run_succ k (step_tick hs _)).trans (ih (s := s.tick) hs)

/-- k ticks take k off each timer, down to 0. -/
theorem toNat_timers_ticks (k : Nat) (s : State) :
    (State.tick^[k] s).dt.toNat = s.dt.toNat - k ∧ (State.tick^[k] s).st.toNat = s.st.toNat - k := by
  induction k with
  | zero => exact ⟨rfl, rfl⟩
  | succ k ih =>
    obtain ⟨hdt, hst⟩ := ih
    rw [Function.iterate_succ_apply']
    exact ⟨(toNat_tickTimer _).trans (congrArg (· - 1) hdt), (toNat_tickTimer _).trans (congrArg (· - 1) hst)⟩

/-! ### A timer that only ticks change -/

/-- From transition n up to transition N the ticks of τ decrement the timer b and nothing else changes it. -/
def RunsDown (τ : Schedule) (b : Nat → Byte) (n N : Nat) : Prop :=
  ∀ m : Nat, n ≤ m → m < N →
    (τ m = .tick → b (m + 1) = tickTimer (b m)) ∧ (τ m ≠ .tick → b (m + 1) = b m)

section execution
variable {τ : Schedule} {σ : Nat → State} {n N : Nat}

/-- DT runs down while the core executes no Fx15. -/
theorem runsDown_dt (h : ExecutionTo τ σ N)
    (hw : ∀ m, n ≤ m → m < N → τ m = .core → ∀ y, ¬Executes (σ m) (.ldDtVx y)) :
    RunsDown τ (fun m => (σ m).dt) n N := by
  intro m hnm hmN
  obtain ⟨htick, hkept, -⟩ := transition_timers (h m hmN)
  exact ⟨fun ha => (htick ha).1, fun ha => hkept ha (hw m hnm hmN)⟩

/-- ST runs down while the core executes no Fx18. -/
theorem runsDown_st (h : ExecutionTo τ σ N)
    (hw : ∀ m, n ≤ m → m < N → τ m = .core → ∀ y, ¬Executes (σ m) (.ldStVx y)) :
    RunsDown τ (fun m => (σ m).st) n N := by
  intro m hnm hmN
  obtain ⟨htick, -, hkept⟩ := transition_timers (h m hmN)
  exact ⟨fun ha => (htick ha).2, fun ha => hkept ha (hw m hnm hmN)⟩

end execution

section ticks
variable {τ : Schedule}

theorem ticksBefore_succ_of_tick {N : Nat} (h : τ N = .tick) : ticksBefore τ (N + 1) = ticksBefore τ N + 1 := by
  rw [ticksBefore, if_pos h]

theorem ticksBefore_succ_of_ne {N : Nat} (h : τ N ≠ .tick) : ticksBefore τ (N + 1) = ticksBefore τ N := by
  rw [ticksBefore, if_neg h, Nat.add_zero]

theorem ticksBefore_mono : Monotone (ticksBefore τ) :=
  monotone_nat_of_le_succ fun _ => Nat.le_add_right _ _

/-- Under weak fairness there are as many ticks as one likes. -/
theorem WeaklyFair.exists_le_ticksBefore (hfair : WeaklyFair τ) (v : Nat) : ∃ N, v ≤ ticksBefore τ N := by
  induction v with
  | zero => exact ⟨0, Nat.zero_le _⟩
  | succ v ih =>
    obtain ⟨N, hN⟩ := ih
    obtain ⟨m, hNm, hm⟩ := hfair N
    refine ⟨m + 1, ?_⟩
    rw [ticksBefore_succ_of_tick hm]
    exact Nat.succ_le_succ (hN.trans (ticksBefore_mono hNm))

variable {b : Nat → Byte} {n : Nat}

/-- A timer that runs down holds its first value less the ticks since, and never less than 0 (R217). -/
theorem RunsDown.toNat_eq {N : Nat} (h : RunsDown τ b n N) (hn : n ≤ N) :
    (b N).toNat = (b n).toNat - (ticksBefore τ N - ticksBefore τ n) := by
  induction N, hn using Nat.le_induction with
  | base => rw [Nat.sub_self, Nat.sub_zero]
  | succ N hn ih =>
    have hN : (b N).toNat = (b n).toNat - (ticksBefore τ N - ticksBefore τ n) :=
      ih fun m hnm hmN => h m hnm (Nat.lt_succ_of_lt hmN)
    have hmono : ticksBefore τ n ≤ ticksBefore τ N := ticksBefore_mono hn
    obtain ⟨htick, hkept⟩ := h N hn (Nat.lt_succ_self N)
    by_cases ha : τ N = .tick
    · rw [htick ha, toNat_tickTimer, hN, ticksBefore_succ_of_tick ha]
      omega
    · rw [hkept ha, hN, ticksBefore_succ_of_ne ha]

/-- Under weak fairness a timer that runs down for ever is 0 from some point on: a byte is below 256 ticks. -/
theorem RunsDown.eventually_zero (hfair : WeaklyFair τ) (h : ∀ N, RunsDown τ b n N) :
    ∃ m, n ≤ m ∧ ∀ k, m ≤ k → b k = 0 := by
  obtain ⟨M, hM⟩ := hfair.exists_le_ticksBefore (ticksBefore τ n + 256)
  refine ⟨max n M, le_max_left n M, fun k hk => BitVec.eq_of_toNat_eq ?_⟩
  have hticks : ticksBefore τ M ≤ ticksBefore τ k := ticksBefore_mono ((le_max_right n M).trans hk)
  have hbyte : (b n).toNat < 256 := (b n).isLt
  rw [(h k).toNat_eq ((le_max_left n M).trans hk)]
  exact Nat.sub_eq_zero_of_le (by omega)

end ticks

/-! ### The two statements (R216, R217) -/

/-- Settles O44: for ticks in a row the run is computed; among other transitions the written timer runs down. -/
theorem timerHoldsValueMinusTicks : Obligations.TimerHoldsValueMinusTicks := by
  refine ⟨fun x s t k rest hs => ⟨fun h => ?_, fun h => ?_⟩, fun x s τ σ N hexec => ⟨fun h hw => ?_, fun h hw => ?_⟩⟩
  · cases h
    exact ⟨_, run_ticks k (s := s.setDT (s.readV x)) hs rest, (toNat_timers_ticks k _).1, rfl⟩
  · cases h
    exact ⟨_, run_ticks k (s := s.setST (s.readV x)) hs rest, (toNat_timers_ticks k _).2, rfl⟩
  · have hwritten : s.readV x = (σ 0).dt := congrArg State.dt (Host.Outcome.next.inj h)
    rw [hwritten]
    exact (runsDown_dt hexec fun m _ => hw m).toNat_eq (Nat.zero_le N)
  · have hwritten : s.readV x = (σ 0).st := congrArg State.st (Host.Outcome.next.inj h)
    rw [hwritten]
    exact (runsDown_st hexec fun m _ => hw m).toNat_eq (Nat.zero_le N)

/-- Settles O60: every finite part of the execution runs the timer down, and fairness brings more ticks than a byte
can count. -/
theorem fairExecutionsRunTimersOut : Obligations.FairExecutionsRunTimersOut := fun _ _ _ hexec hfair =>
  ⟨fun hw => RunsDown.eventually_zero hfair fun N => runsDown_dt (hexec N) fun m hnm _ => hw m hnm,
    fun hw => RunsDown.eventually_zero hfair fun N => runsDown_st (hexec N) fun m hnm _ => hw m hnm⟩

end Sys2Proof.Machine
end

section
/-! Proofs of the statements about construction and hazards (spec/70_reset_and_hazards.md). A machine constructed with a
ROM is the machine of an empty ROM after one run of writes at 512, so the laws of such a run give its memory. A step of
a core parked on a self-jump answers the state in which that step begins. -/

namespace Sys2Proof.Machine

/-! ### Memory that nothing has written (R52, R54) -/

theorem unlisted_font (base : Fin 433) (k : Nat) : unlisted base (base.val + k) = font.getD k 0 := by
  rw [unlisted, if_pos (Nat.le_add_right _ k), Nat.add_sub_cancel_left]

/-- The font has 80 bytes; every address before or after them reads as 0. -/
theorem unlisted_of_outside_font {base : Fin 433} {a : Nat} (h : ¬(base.val ≤ a ∧ a < base.val + 80)) :
    unlisted base a = 0 := by
  unfold unlisted
  split
  · have hlen : font.length ≤ a - base.val := by
      have hfont : font.length = 80 := by decide
      omega
    rw [List.getD_eq_default _ _ hlen]
  · rfl

/-! ### The machine of an empty ROM (R38, R241) -/

/-- The reset state under a given configuration, on which construction writes the ROM. -/
def State.resetWith (cfg : Config) : State := { State.reset with cfg := cfg }

theorem readByte_resetWith (cfg : Config) (a : Nat) : (State.resetWith cfg).readByte a = unlisted cfg.fontBase a := rfl

theorem canonical_resetWith (cfg : Config) : MemoryCanonical (State.resetWith cfg) := wf_nil cfg.fontBase

/-- The configuration is all that differs, and FONT_BASE moves the font. -/
theorem frame_resetWith (cfg : Config) : FrameBut [.mem, .cfg] State.reset (State.resetWith cfg) := by
  intro p hp
  cases p
  case mem | cfg => simp at hp
  all_goals simp [AgreeOn, State.resetWith, State.readV, State.keyDown]

/-! ### Construction (R54, R241) -/

theorem construct_of_gt {rom : List Byte} (h : 3584 < rom.length) (cfg : Config) : State.construct rom cfg = none :=
  if_pos h

theorem construct_of_le {rom : List Byte} (h : rom.length ≤ 3584) (cfg : Config) :
    State.construct rom cfg = some ((State.resetWith cfg).writeBytes 512 rom) :=
  if_neg h.not_gt

/-- Settles O49: the ROM's bytes read back from 512 on. FONT_BASE is at most 432, so the font ends below them and reads,
like every other address, as memory that nothing has written. -/
theorem constructionLoadsRom : Obligations.ConstructionLoadsRom := by
  refine fun rom cfg => ⟨fun hgt => construct_of_gt hgt cfg, fun hle => ?_⟩
  have hend : 512 + rom.length ≤ memSize := Nat.add_le_add_left hle 512
  have hkept : ∀ a, ¬(512 ≤ a ∧ a < 512 + rom.length) →
      ((State.resetWith cfg).writeBytes 512 rom).readByte a = unlisted cfg.fontBase a := fun a ha =>
    (memBut_writeBytes _ 512 rom a ha).trans (readByte_resetWith cfg a)
  refine ⟨_, construct_of_le hle cfg, rfl, canonical_writeBytes _ 512 rom (canonical_resetWith cfg) hend,
    fun k hk => readByte_writeBytes_add _ 512 hk, fun k hk => ?_, fun a hrom hfont => ?_,
    (frame_resetWith cfg).trans ((frame_writeBytes _ 512 rom).mono (by simp))⟩
  · have hbelow : cfg.fontBase.val + k < 512 := by omega
    rw [hkept _ fun hin => hbelow.not_ge hin.1, unlisted_font]
  · rw [hkept a hrom, unlisted_of_outside_font hfont]

/-! ### A core parked on a self-jump (R250) -/

theorem ParkedAt.zextAddr_eq_pc {s : State} {nnn : Addr} (h : ParkedAt s nnn) : zextAddr nnn = s.pc :=
  BitVec.eq_of_toNat_eq ((toNat_zextAddr nnn).trans h.1.symm)

/-- The jump undoes the advance: what is left is the state in which the step begins. -/
theorem step_parked {s : State} {nnn : Addr} (hready : CoreReady s)
    (hodd : s.pc.toNat % 2 = 0 ∨ s.cfg.oddPc = .execute) (hp : ParkedAt s nnn) : step s = .next s.begun := by
  calc step s = runWord (encode (.jp nnn)) s.begun := step_fetched s _ hready (oddRefused_eq_false hodd) hp.2
    _ = exec (.jp nnn) s.begun.advance := runWord_instr (decodeWord_encode _) _
    _ = .next (s.begun.setPc (zextAddr nnn)) := rfl
    _ = .next s.begun := by rw [hp.zextAddr_eq_pc]; rfl

/-- Settles O47: `begun` changes the step result and the schedule alone. -/
theorem selfJumpChangesNothing : Obligations.SelfJumpChangesNothing :=
  fun s _ hready hodd hp => ⟨_, step_parked hready hodd hp, rfl, (frame_begun s).mono (by simp)⟩

end Sys2Proof.Machine
end
